-- ==== Sys2Proof/Word.lean ====
section
/-! DEFINITION. The machine's words: a byte (00_scope.md R10: every context register and every S-box
entry is a byte) and the 32-bit value of `U32` and `UNIF` (R12). Arithmetic on them is `BitVec`'s own:
unsigned, wrapping at the width (45_arithmetic_control_access.md R200). -/

namespace Sys2Proof

/-- A byte, an unsigned integer in 0..255 (R10). -/
abbrev Byte := BitVec 8

/-- An unsigned 32-bit value (R12). -/
abbrev Word := BitVec 32

end Sys2Proof
end

