-- ==== Sys2Proof/Syntax.lean ====
section
/-! DEFINITION. The fourteen commands, one constructor per row of spec/opcode_table.json
(30_encoding.md R76). The aliases of R81 are other names of these commands and the pseudo-instructions of
R82 to R92 expand to them: both belong to the assembler (Source.lean, Machine/Assembler.lean). -/

namespace Sys2Proof

/-- A command. Each operand has the width its encoding gives it (R73 to R75): every value is legal (R78). -/
inductive Instr where
  /-- `NOP` (R131) -/
  | nop
  /-- `INIT` (R132) -/
  | init
  /-- `STOP` (R134) -/
  | stop
  /-- `DRIP` (R150) -/
  | drip
  /-- `U32` (R152) -/
  | u32
  /-- `WIPE` (R194) -/
  | wipe
  /-- `CMPCLR` (R191) -/
  | cmpclr
  /-- `CMPRD` (R193) -/
  | cmprd
  /-- `ABSB b` (R133) -/
  | absb (b : Byte)
  /-- `XORB b` (R155) -/
  | xorb (b : Byte)
  /-- `SQZ n` (R151) -/
  | sqz (n : Byte)
  /-- `FINAL n` (R170) -/
  | final (n : Byte)
  /-- `CMPB x, y` (R192) -/
  | cmpb (x y : Byte)
  /-- `UNIF upper` (R153) -/
  | unif (upper : Word)
deriving DecidableEq, Repr

end Sys2Proof
end

