-- ==== Sys2Proof/Decode.lean ====
section
/-! DEFINITION. The decoder, total on any byte sequence (30_encoding.md R77), the encoder (R72 to R76), and
the numbering spec/opcode_table.json gives a row's bits. -/

namespace Sys2Proof

/-- The fourteen opcode bytes of R76; the other 242 are illegal (R78). -/
def legalOpcode (op : Byte) : Bool :=
  op ≤ 0x07#8 || (0x40#8 ≤ op && op ≤ 0x43#8) || op == 0x80#8 || op == 0xC0#8

/-- The number of operand bytes, by `opcode[7:6]` alone (R70): 0, 1, 2 or 4. -/
def operandCount (op : Byte) : Nat :=
  match (op >>> 6).toNat with
  | 0 => 0
  | 1 => 1
  | 2 => 2
  | _ => 4

/-- `{b1, b2, b3, b4}` as one 32-bit value, the first byte the most significant (R75; R58). -/
def wordOfBytes (b1 b2 b3 b4 : Byte) : Word :=
  (b1.setWidth 32 <<< 24) ||| (b2.setWidth 32 <<< 16) ||| (b3.setWidth 32 <<< 8) ||| b4.setWidth 32

/-- The four bytes of a 32-bit value, the most significant first (R58). -/
def bytesOfWord (v : Word) : List Byte :=
  [v.extractLsb' 24 8, v.extractLsb' 16 8, v.extractLsb' 8 8, v.extractLsb' 0 8]

/-- A row of the opcode map by its format: what the operand bytes become (R72 to R75). -/
inductive Form where
  /-- format Z: no operand byte -/
  | z (i : Instr)
  /-- format B: one operand byte -/
  | b (i : Byte → Instr)
  /-- format P: two operand bytes -/
  | p (i : Byte → Byte → Instr)
  /-- format W: four operand bytes, a 32-bit value -/
  | w (i : Word → Instr)

/-- The opcode map of R76, row for row. -/
def opcodeTable : List (Byte × Form) :=
  [ (0x00#8, .z .nop),
    (0x01#8, .z .init),
    (0x02#8, .z .stop),
    (0x03#8, .z .drip),
    (0x04#8, .z .u32),
    (0x05#8, .z .wipe),
    (0x06#8, .z .cmpclr),
    (0x07#8, .z .cmprd),
    (0x40#8, .b .absb),
    (0x41#8, .b .xorb),
    (0x42#8, .b .sqz),
    (0x43#8, .b .final),
    (0x80#8, .p .cmpb),
    (0xC0#8, .w .unif) ]

/-- What the decoder makes of the bytes that have arrived. -/
inductive Decoded where
  /-- a whole command, and the bytes after it -/
  | ok (i : Instr) (rest : List Byte)
  /-- the first byte is no opcode of R76 (R78); the bytes after it -/
  | illegalOpcode (rest : List Byte)
  /-- operand bytes (or the opcode itself) are still to come (R55, R79) -/
  | incomplete
deriving DecidableEq, Repr

/-- The operand bytes of a row, in arrival order (R71). -/
def Form.parse : Form → List Byte → Decoded
  | .z i, rest => .ok i rest
  | .b i, b1 :: rest => .ok (i b1) rest
  | .p i, b1 :: b2 :: rest => .ok (i b1 b2) rest
  | .w i, b1 :: b2 :: b3 :: b4 :: rest => .ok (i (wordOfBytes b1 b2 b3 b4)) rest
  | _, _ => .incomplete

/-- R77: an illegal opcode is refused at once, a legal one waits for the operand bytes it announces, and an
operand byte is never read as an opcode. -/
def decode : List Byte → Decoded
  | [] => .incomplete
  | op :: operands =>
    match opcodeTable.lookup op with
    | none => .illegalOpcode operands
    | some row => row.parse operands

/-- The bytes of a command, opcode first (R71 to R76). -/
def encode : Instr → List Byte
  | .nop => [0x00#8]
  | .init => [0x01#8]
  | .stop => [0x02#8]
  | .drip => [0x03#8]
  | .u32 => [0x04#8]
  | .wipe => [0x05#8]
  | .cmpclr => [0x06#8]
  | .cmprd => [0x07#8]
  | .absb b => [0x40#8, b]
  | .xorb b => [0x41#8, b]
  | .sqz n => [0x42#8, n]
  | .final n => [0x43#8, n]
  | .cmpb x y => [0x80#8, x, y]
  | .unif upper => 0xC0#8 :: bytesOfWord upper

/-- The length `L` of a command in bytes (R70). -/
def Instr.length : Instr → Nat
  | .nop | .init | .stop | .drip | .u32 | .wipe | .cmpclr | .cmprd => 1
  | .absb _ | .xorb _ | .sqz _ | .final _ => 2
  | .cmpb _ _ => 3
  | .unif _ => 5

/-- The number of response bytes a command emits when it does not fault (R93). -/
def Instr.emits : Instr → Nat
  | .nop | .init | .stop | .wipe | .cmpclr | .absb _ | .cmpb _ _ => 0
  | .drip | .cmprd | .xorb _ => 1
  | .u32 | .unif _ => 4
  | .sqz n | .final n => n.toNat

/-- The commands marked "needs `live`" in R76. -/
def Instr.needsLive : Instr → Bool
  | .stop | .drip | .u32 | .absb _ | .xorb _ | .sqz _ | .final _ | .unif _ => true
  | .nop | .init | .wipe | .cmpclr | .cmprd | .cmpb _ _ => false

/-- The bytes of a command whose bits are numbered as spec/opcode_table.json numbers them (bits 7..0 the
opcode byte, bits 15..8 the first operand byte, and so on), the bits from `nbits` up being 0: the opcode
byte and as many operand bytes as it announces; of an illegal opcode, that byte alone. -/
def tableBytes (nbits w : Nat) : List Byte :=
  let v := w % 2 ^ nbits
  let op := BitVec.ofNat 8 v
  let operands := [BitVec.ofNat 8 (v / 2 ^ 8), BitVec.ofNat 8 (v / 2 ^ 16), BitVec.ofNat 8 (v / 2 ^ 24),
    BitVec.ofNat 8 (v / 2 ^ 32)]
  op :: (if legalOpcode op then operands.take (operandCount op) else [])

/-- The command the decoder reads from an opcode-table word, and none where it refuses the word. -/
def decodeTableWord (nbits w : Nat) : Option Instr :=
  match decode (tableBytes nbits w) with
  | .ok i _ => some i
  | .illegalOpcode _ => none
  | .incomplete => none

end Sys2Proof
end

