-- ==== Sys2Proof/Config.lean ====
section
/-! DEFINITION. What an implementation fixes (the configuration triple of 00_scope.md R8) and the values
the spec leaves free. -/

namespace Sys2Proof

/-- The configuration triple `(SAFE_TIMING_CRUSH, WIPE_AFTER_USAGE, WIPE_AFTER_USAGE_PARANOID)`: its five
legal values, one constructor each (R8, R32). A triple that sets PARANOID without the other two is no
value of this type: such a build does not exist (R8; 93_implementation_defined.md U14). -/
inductive Cfg where
  /-- `(0,0,0)` -/
  | bare
  /-- `(1,0,0)` -/
  | safeTiming
  /-- `(0,1,0)` -/
  | wipeAfter
  /-- `(1,1,0)` -/
  | safeTimingWipe
  /-- `(1,1,1)` -/
  | paranoid
deriving DecidableEq, Repr, Inhabited

/-- `SAFE_TIMING_CRUSH`: constant-time `crush` (R8). -/
def Cfg.safeTimingCrush : Cfg → Bool
  | .bare => false
  | .safeTiming => true
  | .wipeAfter => false
  | .safeTimingWipe => true
  | .paranoid => true

/-- `WIPE_AFTER_USAGE`: `FINAL` ends with a wipe of the context (R8; 43_hash_mac.md R170). -/
def Cfg.wipeAfterUsage : Cfg → Bool
  | .bare => false
  | .safeTiming => false
  | .wipeAfter => true
  | .safeTimingWipe => true
  | .paranoid => true

/-- `WIPE_AFTER_USAGE_PARANOID`: the scratch latches are zero between commands (R8; 10_state.md R33). -/
def Cfg.wipeAfterUsageParanoid : Cfg → Bool
  | .bare => false
  | .safeTiming => false
  | .wipeAfter => false
  | .safeTimingWipe => false
  | .paranoid => true

/-- The build of a triple of bits, and none for the three illegal triples (R8, U14). -/
def Cfg.ofBits : Bool → Bool → Bool → Option Cfg
  | false, false, false => some .bare
  | true, false, false => some .safeTiming
  | false, true, false => some .wipeAfter
  | true, true, false => some .safeTimingWipe
  | true, true, true => some .paranoid
  | _, _, true => none

/-- DESIGN CHOICE (log entry 3). The triple this block was built with. The spec leaves it open (R8: no
default), so it has no body: nothing can be proved of its value. It is only the `cfg` of `State.reset`. -/
opaque Config.buildCfg : Cfg

/-- DESIGN CHOICE (log entry 4). The free values of the scratch latches `t0`, `t1` between commands when
the configuration is not PARANOID: "their value between commands is unspecified" (10_state.md R33,
93_implementation_defined.md U5). No body: nothing constrains them. `State.fresh` counts the uses. -/
opaque Config.freeLatch : Nat → Byte

/-- DESIGN CHOICE (log entry 6). How many draws of `UNIF` one step of the model makes before it hands the
unfinished command on to the next step (42_keystream_crypt.md R154 bounds no number of draws). It fixes how
a command is cut into steps, never what the command does. -/
def Config.drawsPerStep : Nat := 64

end Sys2Proof
end

