-- ==== Sys2Proof/Machine/State.lean ====
section
/-! DEFINITION. The machine's state as plain data, holding every piece of state 10_state.md gives, and the
state after reset (10_state.md R38, 70_reset_and_hazards.md R241). -/

namespace Sys2Proof.Machine

open Sys2Proof

/-- The context, "a fixed-size byte permutation plus six scalar indices" (R20). -/
structure Ctx where
  /-- the S-box, 256 bytes at addresses 0..255 (R21, R50): its nonzero bytes by rising address; an address
  that is not listed holds 0x00, the reset contents (R38) -/
  s : List Host.Cell
  /-- index register (R22) -/
  i : Byte
  /-- index register (R22) -/
  j : Byte
  /-- index register (R22) -/
  k : Byte
  /-- the last-emitted output byte (R23) -/
  z : Byte
  /-- absorb steps since the last shuffle (R24) -/
  a : Byte
  /-- the stride of `update` (R25) -/
  w : Byte
deriving DecidableEq, Repr

/-- The context with every field zero, as reset (R38) and `ctx_wipe` (R116) leave it. -/
def Ctx.zero : Ctx :=
  { s := [], i := 0, j := 0, k := 0, z := 0, a := 0, w := 0 }

/-- The sequencer (R35, R171). Commands are atomic, so it is idle between commands; the one micro-state the
model keeps is a `UNIF upper` whose draws have all been rejected so far (R154, R249; log entry 6). -/
inductive Sequencer where
  | idle
  | drawing (upper : Word)
deriving DecidableEq, Repr

/-- The RESET input, as the host drives it (R240, R242; log entry 8). -/
inductive ResetInput where
  /-- not asserted -/
  | low
  /-- asserted now, before the block takes another byte -/
  | high
  /-- asserted while the block executes what comes next, after `k` of its response bytes got out (R242) -/
  | during (k : Nat)
deriving DecidableEq, Repr

/-- The machine. `cmd` and `rst` are the host's side of the ports and `fresh` counts free values: these
three are the model's own (log entries 2, 8 and 4). -/
structure State where
  /-- the context (R20) -/
  ctx : Ctx
  /-- the context has been created by `INIT` and not wiped since (R28) -/
  live : Bool
  /-- the sticky fault cause: 0 none, 1 `ILLEGAL_OPCODE`, 2 `NOT_LIVE` (R29) -/
  err : Byte
  /-- the comparator's accumulator (R30) -/
  c : Byte
  /-- scratch latch (R33) -/
  t0 : Byte
  /-- scratch latch (R33) -/
  t1 : Byte
  /-- the command assembler: the bytes of a command that is not yet complete (R34) -/
  asm : List Byte
  /-- the sequencer (R35) -/
  seq : Sequencer
  /-- the number of command bytes consumed (R27) -/
  pc : Nat
  /-- the response stream: every byte emitted so far, the first first (R39, R56) -/
  out : List Byte
  /-- the configuration triple, hardwired (R32) -/
  cfg : Cfg
  /-- command bytes the host has pushed and the assembler has not taken, the next one first (R55) -/
  cmd : List Byte
  /-- the RESET input (R240) -/
  rst : ResetInput
  /-- how many free values have been used; plain bookkeeping of the model (R33) -/
  fresh : Nat
deriving DecidableEq, Repr

/-- No fault of the host's kind exists. The block's two faults, `ILLEGAL_OPCODE` and `NOT_LIVE`, are
exceptions whose entry the spec describes (60_exceptions.md R214): they are next states, with `err` set and
the block locked. No step of the model stops with a fault, which is safe: nobody raises one. -/
inductive Fault where
deriving DecidableEq, Repr

/-- Why a step gives an instruction no meaning. -/
inductive Refusal where
  /-- raised only by an arm of `exec` that has no meaning yet; no arm raises it now. Safe: the machine
  stops where the hardware goes on. -/
  | notModelled (mnemonic : String)
deriving DecidableEq, Repr

/-- The outcome of one step. -/
abbrev Result := Host.Outcome State Fault Refusal

/-- The machine of configuration `cfg` right after reset (R38, R241): everything zero, the context dead,
the assembler empty, the sequencer idle. Nothing has been pushed and RESET is low again. -/
def State.resetWith (cfg : Cfg) : State :=
  { ctx := Ctx.zero, live := false, err := 0, c := 0, t0 := 0, t1 := 0, asm := [], seq := .idle,
    pc := 0, out := [], cfg := cfg, cmd := [], rst := .low, fresh := 0 }

/-- The machine right after reset; its configuration is the build's, which the spec leaves open (R8, R32;
log entry 3). -/
def State.reset : State := State.resetWith Config.buildCfg

end Sys2Proof.Machine
end

