-- ==== Sys2Proof/Machine/Ops.lean ====
section
/-! DEFINITION. The named operations over the S-box's memory, the streams, the latches, and the whole
machine: what a command's end does, fault entry, the locked state's discard, and reset. -/

namespace Sys2Proof.Machine

open Sys2Proof

/-! ### The S-box's memory (20_memory.md R50) -/

/-- What the address holds; an unlisted address holds 0x00, the reset contents (R38). -/
def Memory.read : List Host.Cell → Nat → Byte
  | [], _ => 0
  | (b, v) :: m, x => if b = x then v else Memory.read m x

/-- Addresses below 256 and strictly rising from `lo` on, no byte zero. -/
def Memory.wfFrom : Nat → List Host.Cell → Bool
  | _, [] => true
  | lo, (b, v) :: m => decide (lo ≤ b) && decide (b < 256) && decide (v ≠ 0) && Memory.wfFrom (b + 1) m

/-- The canonical form of the S-box's memory: equal contents are equal lists. -/
def Memory.wf (m : List Host.Cell) : Bool := Memory.wfFrom 0 m

/-- The S-box's 256 bytes side by side, entry `x` in bits `8x+7 .. 8x`: the form in which a command's
micro-operations hold the S-box while they run (log entry 11). -/
abbrev Image := BitVec 2048

/-- `s[x]` (R11, R50). Every address is a byte, so no access falls outside (R52). -/
def Image.load (m : Image) (x : Byte) : Byte := (m >>> (8 * x.toNat)).setWidth 8

/-- `s[x] <- v` (R11, R50): exactly the bits in which entry `x` differs from `v` are turned over. -/
def Image.store (m : Image) (x v : Byte) : Image :=
  m ^^^ ((Image.load m x ^^^ v).setWidth 2048 <<< (8 * x.toNat))

/-- The image of a memory. -/
def Image.ofCells (m : List Host.Cell) : Image :=
  m.foldr (fun cell image => Image.store image (BitVec.ofNat 8 cell.1) cell.2) 0

/-- The memory of an image, always in canonical form: the nonzero entries by rising address. -/
def Image.cells (m : Image) : List Host.Cell :=
  ((List.range 256).map fun x => (x, Image.load m (BitVec.ofNat 8 x))).filter fun cell => cell.2 != 0

/-- The context as the engine's micro-operations work on it: the S-box as an image, and the six registers
(R20). -/
structure Engine where
  s : Image
  i : Byte
  j : Byte
  k : Byte
  z : Byte
  a : Byte
  w : Byte
deriving DecidableEq, Repr

/-- The engine's view of a context. -/
def Ctx.toEngine (c : Ctx) : Engine :=
  { s := Image.ofCells c.s, i := c.i, j := c.j, k := c.k, z := c.z, a := c.a, w := c.w }

/-- The context an engine's work leaves. -/
def Engine.toCtx (e : Engine) : Ctx :=
  { s := Image.cells e.s, i := e.i, j := e.j, k := e.k, z := e.z, a := e.a, w := e.w }

/-- `s[x]` in the engine's context. -/
def Engine.load (e : Engine) (x : Byte) : Byte := Image.load e.s x

/-- `s[x] <- v` in the engine's context. -/
def Engine.store (e : Engine) (x v : Byte) : Engine := { e with s := Image.store e.s x v }

/-! ### Loops -/

/-- `for v in 0 .. n-1: body`, in increasing order of `v`, zero times when `n = 0` (R11). -/
def forUpTo {α : Type} (n : Nat) (body : Nat → α → α) (x : α) : α :=
  match n with
  | 0 => x
  | n + 1 => body n (forUpTo n body x)

/-! ### The machine -/

/-- `pc <- pc + L` (R11, R27). -/
def State.advance (s : State) (len : Nat) : State := { s with pc := s.pc + len }

/-- `emit(b)` (R11, R56). -/
def State.emit (s : State) (b : Byte) : State := { s with out := s.out ++ [b] }

/-- `emit` of several bytes, the first first (R56). -/
def State.emitAll (s : State) (bs : List Byte) : State := { s with out := s.out ++ bs }

/-- The engine's context at the start of a command. -/
def State.engine (s : State) : Engine := s.ctx.toEngine

/-- The context as a command's micro-operations leave it. -/
def State.setEngine (s : State) (e : Engine) : State := { s with ctx := e.toCtx }

/-- The scratch latches as a command leaves them (10_state.md R33): zero under PARANOID; otherwise a command
whose micro-operations passed S-box or keystream bytes through them (`used`) leaves them unspecified, two
free values, and any other command leaves them alone (DEDUCED, log entry 5). -/
def State.settle (used : Bool) (s : State) : State :=
  if s.cfg.wipeAfterUsageParanoid then { s with t0 := 0, t1 := 0 }
  else if used then
    { s with t0 := Config.freeLatch s.fresh, t1 := Config.freeLatch (s.fresh + 1), fresh := s.fresh + 2 }
  else s

/-- The end of a command of length `len`: the latches settle and `pc` moves on (R130, R33). -/
def State.complete (used : Bool) (len : Nat) (s : State) : State := (s.settle used).advance len

/-- `ctx_wipe()` (40_primitives.md R116): the context and the latches all zero, `live <- 0`. -/
def State.ctxWipe (s : State) : State := { s with ctx := Ctx.zero, t0 := 0, t1 := 0, live := false }

/-- The two fault causes (60_exceptions.md R210). -/
inductive Cause where
  | illegalOpcode
  | notLive
deriving DecidableEq, Repr

/-- The cause's code in `err` (R210). -/
def Cause.code : Cause → Byte
  | .illegalOpcode => 1
  | .notLive => 2

/-- Fault entry, `raise Fault(cause)` (R214): the context wiped, the cause kept, the assembler emptied.
Nothing is saved and nothing is emitted; `c` stays; control goes nowhere, and the block is locked (R215). -/
def State.faultEntry (cause : Cause) (s : State) : State :=
  { s.ctxWipe with err := cause.code, asm := [] }

/-- A locked block discards `n` bytes: `pc` counts them, nothing else happens (R215). -/
def State.discard (n : Nat) (s : State) : State := s.advance n

/-- RESET (70_reset_and_hazards.md R240, R241), the only way out of a fault (R216): the reset state, of the
same build. The bytes already emitted stay emitted (R242) and bytes the block has not taken are the host's
still; the count of free values goes on (log entry 8). -/
def State.resetNow (s : State) : State :=
  { State.resetWith s.cfg with out := s.out, cmd := s.cmd, fresh := s.fresh }

/-- RESET inside what took the machine from `before` to `after` (R242): the reset state, and of the response
bytes only the first `k` have been emitted. -/
def State.resetWithin (k : Nat) (before after : State) : State :=
  { after.resetNow with out := before.out ++ (after.out.drop before.out.length).take k }

end Sys2Proof.Machine
end

