-- ==== Sys2Proof/Machine/Flags.lean ====
section
/-! DEFINITION. What plays the part of flags (10_state.md R28 to R31): the tests on `err` and `live` every
command begins with, the mask of the constant-time `crush`, and the comparator's accumulation. There are no
carry, zero, negative or overflow flags (R31). -/

namespace Sys2Proof.Machine

open Sys2Proof

/-- The crush mask (40_primitives.md R106): the 16-bit difference `t1 - t0`, and 0xFF exactly when its bit 15,
the borrow, is set (R201). It lives only inside one pair step (R31). -/
def crushMask (t0 t1 : Byte) : Byte :=
  if (t1.setWidth 16 - t0.setWidth 16).getLsbD 15 then 0xFF#8 else 0x00#8

/-- `(t & ~m) | (u & m)`, the byte a pair step stores (R106, R202). -/
def maskSelect (m t u : Byte) : Byte := (t &&& ~~~m) ||| (u &&& m)

/-- `c | (x ^ y)` (44_timing_safe_utilities.md R192). -/
def compareByte (c x y : Byte) : Byte := c ||| (x ^^^ y)

/-- A command that needs no context (41_setup_absorb.md R130): a locked block only discards its `len` bytes
(60_exceptions.md R215). -/
def State.command (len : Nat) (body : State → State) (s : State) : Result :=
  .next (if s.err = 0 then body s else s.discard len)

/-- `require_live` (R11, R212): on a dead context the `NOT_LIVE` fault is taken, before any effect, and `pc`
still advances by the command's length. -/
def State.requireLive (len : Nat) (body : State → State) (s : State) : State :=
  if s.live then body s else (s.faultEntry .notLive).advance len

/-- A command marked "needs `live`" (R130, 30_encoding.md R76). -/
def State.contextCommand (len : Nat) (body : State → State) (s : State) : Result :=
  s.command len (State.requireLive len body)

end Sys2Proof.Machine
end

