-- ==== Sys2Proof/Machine/Operands.lean ====
section
/-! DEFINITION. The operand forms: the nibbles of a data byte (40_primitives.md R109), the S-box addresses
the micro-operations compute (45_arithmetic_control_access.md R205) and the arithmetic of the `UNIF` operand
(R203). A data byte and a count are used as they stand (30_encoding.md R73); the 32-bit operand is assembled
by the decoder (R75). -/

namespace Sys2Proof.Machine

open Sys2Proof

/-- `b & 0x0F` (R109, R202). -/
def lowNibble (b : Byte) : BitVec 4 := (b &&& 0x0F#8).setWidth 4

/-- `(b >> 4) & 0x0F` (R109, R202). -/
def highNibble (b : Byte) : BitVec 4 := ((b >>> 4) &&& 0x0F#8).setWidth 4

/-- The address `128 + x` of a nibble's entry, 128..143 (R108, R205). A nibble is below 16 by its type
(93_implementation_defined.md U9). -/
def nibbleAddr (x : BitVec 4) : Byte := 0x80#8 + x.setWidth 8

/-- The two addresses `p` and `255 - p` of a crush pair (R105, R205). -/
def pairAddr (p : Nat) : Byte × Byte := (BitVec.ofNat 8 p, 0xFF#8 - BitVec.ofNat 8 p)

/-- `min`, the number of low values `UNIF` rejects (42_keystream_crypt.md R153, 90_conflicts.md C4). -/
def unifMin (upper : Word) : Nat := (2 ^ 32 - upper.toNat) % 2 ^ 32 % upper.toNat

/-- `r >= min`, unsigned (R153, R201). -/
def unifAccepts (upper r : Word) : Bool := unifMin upper ≤ r.toNat

/-- `r mod upper`, unsigned (R153, R203). -/
def unifValue (upper r : Word) : Word := BitVec.ofNat 32 (r.toNat % upper.toNat)

end Sys2Proof.Machine
end

