-- ==== Sys2Proof/Machine/Micro.lean ====
section
/-! DEFINITION. The internal micro-operations (40_primitives.md): total functions on the context, none of
which can fault, reads `live`, `err` or `c`, or emits a byte (the bytes `squeeze` emits are its result, which
the command emits). The latches `t0`, `t1` and the mask are locals here: what a command leaves in the latches
is `State.settle`. -/

namespace Sys2Proof.Machine

open Sys2Proof

/-- `swap(x, y)` (R101): both reads before either write. -/
def Engine.swap (e : Engine) (x y : Byte) : Engine :=
  let t0 := e.load x
  let t1 := e.load y
  (e.store x t1).store y t0

/-- `update()` (R102): new `i`; new `j` from the new `i`, old `j`, old `k`; new `k` from the new `i`, old `k`,
new `j`; then `swap(i, j)`. -/
def Engine.update (e : Engine) : Engine :=
  let i := e.i + e.w
  let j := e.k + e.load (e.j + e.load i)
  let k := i + e.k + e.load j
  { e with i := i, j := j, k := k }.swap i j

/-- `whip(r)` (R103): `update` `r` times, then `w <- w + 2`. -/
def Engine.whip (e : Engine) (r : Nat) : Engine :=
  let e := forUpTo r (fun _ e => e.update) e
  { e with w := e.w + 2 }

/-- The plain pair step of `crush` (R105): swap when the first entry is the greater, unsigned. -/
def Engine.crushPairPlain (e : Engine) (p q : Byte) : Engine :=
  if e.load p > e.load q then e.swap p q else e

/-- The masked pair step of `crush` (R106): both loads, the mask, both stores, whatever the mask is. -/
def Engine.crushPairMasked (e : Engine) (p q : Byte) : Engine :=
  let t0 := e.load p
  let t1 := e.load q
  let m := crushMask t0 t1
  (e.store p (maskSelect m t0 t1)).store q (maskSelect m t1 t0)

/-- `crush()` (R105, R106): the 128 pairs in order, masked under `SAFE_TIMING_CRUSH`. -/
def Engine.crush (cfg : Cfg) (e : Engine) : Engine :=
  forUpTo 128 (fun p e =>
    let pq := pairAddr p
    if cfg.safeTimingCrush then e.crushPairMasked pq.1 pq.2 else e.crushPairPlain pq.1 pq.2) e

/-- `shuffle()` (R107). -/
def Engine.shuffle (cfg : Cfg) (e : Engine) : Engine :=
  let e := ((((e.whip 512).crush cfg).whip 512).crush cfg).whip 512
  { e with a := 0 }

/-- The test `if a = 128 then shuffle` before an absorb step (R108, R111). -/
def Engine.shuffleIfFull (cfg : Cfg) (e : Engine) : Engine :=
  if e.a = 0x80#8 then e.shuffle cfg else e

/-- `absorb_nibble(x)` (R108). -/
def Engine.absorbNibble (cfg : Cfg) (e : Engine) (x : BitVec 4) : Engine :=
  let e := e.shuffleIfFull cfg
  let e := e.swap e.a (nibbleAddr x)
  { e with a := e.a + 1 }

/-- `absorb_byte(b)` (R109): low nibble first. -/
def Engine.absorbByte (cfg : Cfg) (e : Engine) (b : Byte) : Engine :=
  (e.absorbNibble cfg (lowNibble b)).absorbNibble cfg (highNibble b)

/-- `absorb_stop()` (R111). -/
def Engine.absorbStop (cfg : Cfg) (e : Engine) : Engine :=
  let e := e.shuffleIfFull cfg
  { e with a := e.a + 1 }

/-- The byte a micro-operation returns, and the context after it. -/
structure Byte1 where
  byte : Byte
  engine : Engine
deriving DecidableEq, Repr

/-- `output()` (R112): `update`, then three dependent reads; old `z`, new `k`, `i`, `j`. -/
def Engine.output (e : Engine) : Byte1 :=
  let e := e.update
  let u1 := e.load (e.z + e.k)
  let u2 := e.load (e.i + u1)
  let z := e.load (e.j + u2)
  ⟨z, { e with z := z }⟩

/-- `drip()` (R113): a shuffle first when `a > 0`. -/
def Engine.drip (cfg : Cfg) (e : Engine) : Byte1 :=
  (if e.a > 0#8 then e.shuffle cfg else e).output

/-- The bytes a micro-operation hands to the command to emit, the first first, and the context after it. -/
structure Bytes where
  bytes : List Byte
  engine : Engine
deriving DecidableEq, Repr

/-- `squeeze(n)` (R114): `n` drips; none, and so no shuffle, when `n = 0`. -/
def Engine.squeeze (cfg : Cfg) : Nat → Engine → Bytes
  | 0, e => ⟨[], e⟩
  | n + 1, e =>
    let first := e.drip cfg
    let others := Engine.squeeze cfg n first.engine
    ⟨first.byte :: others.bytes, others.engine⟩

/-- Four drips as one 32-bit draw (42_keystream_crypt.md R152). -/
structure Draw where
  b0 : Byte
  b1 : Byte
  b2 : Byte
  b3 : Byte
  engine : Engine
deriving DecidableEq, Repr

/-- The 32-bit value of a draw: the first byte dripped is the most significant (R152, R58). -/
def Draw.word (d : Draw) : Word := wordOfBytes d.b0 d.b1 d.b2 d.b3

/-- The bytes of a draw in drip order (R152). -/
def Draw.bytes (d : Draw) : List Byte := [d.b0, d.b1, d.b2, d.b3]

/-- Four drips (R152). -/
def Engine.draw (cfg : Cfg) (e : Engine) : Draw :=
  let d0 := e.drip cfg
  let d1 := d0.engine.drip cfg
  let d2 := d1.engine.drip cfg
  let d3 := d2.engine.drip cfg
  ⟨d0.byte, d1.byte, d2.byte, d3.byte, d3.engine⟩

/-- What a run of `UNIF`'s rejection loop comes to. -/
inductive Sampled where
  /-- an accepted draw `r`, and the context after it -/
  | accepted (r : Word) (engine : Engine)
  /-- every draw so far was rejected; the context after them -/
  | pending (engine : Engine)
deriving DecidableEq, Repr

/-- At most `fuel` rounds of `UNIF`'s loop (R153): draw until `r >= min`. The spec bounds no number of draws
(R154), so a pending loop is gone on with (`State.unifDraw`). -/
def Engine.sample (cfg : Cfg) (upper : Word) : Nat → Engine → Sampled
  | 0, e => .pending e
  | fuel + 1, e =>
    let d := e.draw cfg
    if unifAccepts upper d.word then .accepted d.word d.engine else Engine.sample cfg upper fuel d.engine

/-- `initialize()` (R115): `s[v] <- v` for every `v`, the registers 0 but `w`, which is 1. Every field is
written and none is read. -/
def Engine.initial : Engine :=
  { s := forUpTo 256 (fun v m => Image.store m (BitVec.ofNat 8 v) (BitVec.ofNat 8 v)) 0,
    i := 0, j := 0, k := 0, z := 0, a := 0, w := 1 }

end Sys2Proof.Machine
end

