-- ==== Sys2Proof/Machine/HashMac.lean ====
section
/-! DEFINITION. The hash/MAC sequencer's one composite command, `FINAL` (43_hash_mac.md). -/

namespace Sys2Proof.Machine

open Sys2Proof

/-- `absorb_stop(); absorb_byte(n); squeeze(n)`, the micro-states F_STOP, F_LEN and F_SQZ (R170, R171). -/
def Engine.finish (cfg : Cfg) (e : Engine) (n : Byte) : Bytes :=
  ((e.absorbStop cfg).absorbByte cfg n).squeeze cfg n.toNat

/-- `FINAL n` (R170): the digest of length `n`; then, under `WIPE_AFTER_USAGE`, `ctx_wipe()` (F_WIPE, R171;
90_conflicts.md C5). -/
def execFinal (n : Byte) (s : State) : Result :=
  s.contextCommand 2 fun s =>
    let q := s.engine.finish s.cfg n
    let s := ((s.setEngine q.engine).emitAll q.bytes).settle true
    (if s.cfg.wipeAfterUsage then s.ctxWipe else s).advance 2

end Sys2Proof.Machine
end

