-- ==== Sys2Proof/Machine/Keystream.lean ====
section
/-! DEFINITION. The keystream generator and the XOR path: `DRIP`, `SQZ`, `U32`, `UNIF`, `XORB`
(42_keystream_crypt.md). Each begins with `require_live`. -/

namespace Sys2Proof.Machine

open Sys2Proof

/-- `DRIP` (R150): `emit(drip())`. -/
def execDrip (s : State) : Result :=
  s.contextCommand 1 fun s =>
    let d := s.engine.drip s.cfg
    ((s.setEngine d.engine).emit d.byte).complete true 1

/-- `SQZ n` (R151): `squeeze(n)`; `SQZ 0` changes nothing, not even when `a > 0`. -/
def execSqz (n : Byte) (s : State) : Result :=
  s.contextCommand 2 fun s =>
    let q := s.engine.squeeze s.cfg n.toNat
    ((s.setEngine q.engine).emitAll q.bytes).complete (n != 0#8) 2

/-- `U32` (R152): four drips, emitted in drip order, which is the 32-bit value most significant byte first. -/
def execU32 (s : State) : Result :=
  s.contextCommand 1 fun s =>
    let d := s.engine.draw s.cfg
    ((s.setEngine d.engine).emitAll (bytesOfWord d.word)).complete true 1

/-- The rejection loop of `UNIF upper` from the state's context on (R153): an accepted draw ends the command
and emits `r mod upper`, most significant byte first. When `Config.drawsPerStep` draws in a row are rejected
the command is unfinished: the sequencer goes on drawing in the next step, nothing is emitted and `pc` stays
(R154, R249; log entries 6 and 7). -/
def State.unifDraw (upper : Word) (s : State) : State :=
  match s.engine.sample s.cfg upper Config.drawsPerStep with
  | .accepted r e =>
    (({ s.setEngine e with seq := .idle }).emitAll (bytesOfWord (unifValue upper r))).complete true 5
  | .pending e => ({ s.setEngine e with seq := .drawing upper }).settle true

/-- `UNIF upper` (R153): `upper < 2` emits four zero bytes and leaves the context alone; otherwise the
rejection loop. `require_live` comes first. -/
def execUnif (upper : Word) (s : State) : Result :=
  s.contextCommand 5 fun s =>
    if upper < 2#32 then (s.emitAll (bytesOfWord 0#32)).complete false 5 else s.unifDraw upper

/-- `XORB b` (R155): `emit(b ^ drip())`. -/
def execXorb (b : Byte) (s : State) : Result :=
  s.contextCommand 2 fun s =>
    let d := s.engine.drip s.cfg
    ((s.setEngine d.engine).emit (b ^^^ d.byte)).complete true 2

end Sys2Proof.Machine
end

