-- ==== Sys2Proof/Machine/SetupAbsorb.lean ====
section
/-! DEFINITION. Context creation and absorbing: `NOP`, `INIT`, `ABSB`, `STOP` (41_setup_absorb.md). -/

namespace Sys2Proof.Machine

open Sys2Proof

/-- `NOP` (R131): `pc <- pc + 1`. -/
def execNop (s : State) : Result :=
  s.command 1 fun s => s.complete false 1

/-- `INIT` (R132): `initialize()`, `live <- 1`; legal on a dead and on a live context. -/
def execInit (s : State) : Result :=
  s.command 1 fun s => ({ s.setEngine Engine.initial with live := true }).complete false 1

/-- `ABSB b` (R133): `require_live`, `absorb_byte(b)`. -/
def execAbsb (b : Byte) (s : State) : Result :=
  s.contextCommand 2 fun s => (s.setEngine (s.engine.absorbByte s.cfg b)).complete true 2

/-- `STOP` (R134): `require_live`, `absorb_stop()`. S-box bytes pass through the latches only when it
shuffles (R111). -/
def execStop (s : State) : Result :=
  s.contextCommand 1 fun s => (s.setEngine (s.engine.absorbStop s.cfg)).complete (s.ctx.a == 0x80#8) 1

end Sys2Proof.Machine
end

