-- ==== Sys2Proof/Machine/TimingSafe.lean ====
section
/-! DEFINITION. The timing-safe utilities: the buffer comparator `CMPCLR`, `CMPB`, `CMPRD` and the context
wipe `WIPE` (44_timing_safe_utilities.md). None needs a live context. -/

namespace Sys2Proof.Machine

open Sys2Proof

/-- `CMPCLR` (R191): `c <- 0`. -/
def execCmpclr (s : State) : Result :=
  s.command 1 fun s => ({ s with c := 0 }).complete false 1

/-- `CMPB x, y` (R192): `c <- c | (x ^ y)`. -/
def execCmpb (x y : Byte) (s : State) : Result :=
  s.command 3 fun s => ({ s with c := compareByte s.c x y }).complete false 3

/-- `CMPRD` (R193): `emit(c)`; `c` stays. -/
def execCmprd (s : State) : Result :=
  s.command 1 fun s => (s.emit s.c).complete false 1

/-- `WIPE` (R194): `ctx_wipe()`; `c` and `err` stay. Legal on a dead context. -/
def execWipe (s : State) : Result :=
  s.command 1 fun s => s.ctxWipe.complete false 1

end Sys2Proof.Machine
end

