-- ==== Sys2Proof/Machine/Dispatch.lean ====
section
/-! DEFINITION. One arm per command: what executing it does (41_setup_absorb.md R130). -/

namespace Sys2Proof.Machine

open Sys2Proof

def exec (i : Instr) (s : State) : Host.Outcome State Fault Refusal :=
  match i with
  -- context creation and absorbing (41_setup_absorb.md)
  | .nop => Sys2Proof.Machine.execNop s
  | .init => Sys2Proof.Machine.execInit s
  | .stop => Sys2Proof.Machine.execStop s
  | .absb b => Sys2Proof.Machine.execAbsb b s
  -- keystream and XOR path (42_keystream_crypt.md)
  | .drip => Sys2Proof.Machine.execDrip s
  | .u32 => Sys2Proof.Machine.execU32 s
  | .sqz n => Sys2Proof.Machine.execSqz n s
  | .unif upper => Sys2Proof.Machine.execUnif upper s
  | .xorb b => Sys2Proof.Machine.execXorb b s
  -- hash/MAC sequencer (43_hash_mac.md)
  | .final n => Sys2Proof.Machine.execFinal n s
  -- timing-safe utilities (44_timing_safe_utilities.md)
  | .cmpclr => Sys2Proof.Machine.execCmpclr s
  | .cmpb x y => Sys2Proof.Machine.execCmpb x y s
  | .cmprd => Sys2Proof.Machine.execCmprd s
  | .wipe => Sys2Proof.Machine.execWipe s

end Sys2Proof.Machine
end

