-- ==== Sys2Proof/Machine/Fetch.lean ====
section
/-! DEFINITION. How the block takes bytes from the command stream (20_memory.md R55, 30_encoding.md R77):
the assembler, the locked state, and what the block does in one step while RESET is low. -/

namespace Sys2Proof.Machine

open Sys2Proof

/-- The bytes the assembler has to decode: those of the unfinished command it holds, then those the host has
pushed (R34, R55). -/
def State.pending (s : State) : List Byte := s.asm ++ s.cmd

/-- A whole command has been taken: the assembler is empty and the stream goes on with `rest` (R55, R130). -/
def State.taken (rest : List Byte) (s : State) : State := { s with asm := [], cmd := rest }

/-- The operand bytes have not all arrived: the assembler keeps what has, and the block waits (R55, R79). -/
def State.hold (s : State) : State := { s with asm := s.pending, cmd := [] }

/-- `ILLEGAL_OPCODE`, raised on the opcode byte; no operand byte is awaited and `pc` advances by 1 (R77,
60_exceptions.md R211). -/
def State.illegalOpcode (rest : List Byte) (s : State) : State :=
  ((s.taken rest).faultEntry .illegalOpcode).advance 1

/-- A locked block discards the next byte (R215), if there is one. -/
def State.lockedStep (s : State) : State :=
  match s.cmd with
  | [] => s
  | _ :: rest => { s with cmd := rest }.discard 1

/-- An unlocked block decodes what has arrived and executes a whole command (R77). -/
def State.decodeStep (s : State) : Result :=
  match decode s.pending with
  | .ok i rest => exec i (s.taken rest)
  | .illegalOpcode rest => .next (s.illegalOpcode rest)
  | .incomplete => .next s.hold

/-- What the block does while RESET is low: an unfinished `UNIF` goes on drawing and nothing else happens
(R60, R249); a locked block discards; otherwise the assembler decodes. -/
def State.run (s : State) : Result :=
  match s.seq with
  | .drawing upper => .next (s.unifDraw upper)
  | .idle => if s.err = 0 then s.decodeStep else .next s.lockedStep

/-- The outcome of a step that RESET cuts short after `k` response bytes (70_reset_and_hazards.md R242). -/
def State.cutShort (k : Nat) (s : State) : Result → Result
  | .next t => .next (State.resetWithin k s t)
  | .fault r => .fault r
  | .refused r => .refused r

/-- RESET comes first (70_reset_and_hazards.md R240): now, or inside what the block does next (R242); while it
is low the block runs. -/
def State.cycle (s : State) : Result :=
  match s.rst with
  | .low => s.run
  | .high => .next s.resetNow
  | .during k => s.cutShort k s.run

/-- The state with a command's bytes next in the stream, and the block ready to take them: RESET low, no
command unfinished. -/
def State.withCommand (bytes : List Byte) (s : State) : State :=
  { s with asm := [], seq := .idle, rst := .low, cmd := bytes ++ s.cmd }

end Sys2Proof.Machine
end

