-- ==== Sys2Proof/Machine/Step.lean ====
section
/-! DEFINITION. One step of the machine, and the placing of a command where the next step takes it. -/

namespace Sys2Proof.Machine

open Sys2Proof

/-- One step: RESET first, otherwise what the block does (`State.cycle`). -/
def step (s : State) : Host.Outcome State Fault Refusal := s.cycle

/-- The state with the command whose bits are `w` (numbered as spec/opcode_table.json numbers them) next in
the command stream, as if the host had just pushed it (log entry 2). -/
def State.withFetchWord (s : State) (nbits w : Nat) : State := s.withCommand (tableBytes nbits w)

end Sys2Proof.Machine
end

