-- ==== Sys2Proof/Source.lean ====
section
/-! DEFINITION. The assembler's source lines: the mnemonics of 30_encoding.md R76, the aliases of R81 and
the pseudo-instructions of R83 to R92, with the operands as they are written (R80): numbers of any size and
buffers of any length. What the assembler refuses is WellFormed.lean's `Source.wellFormed`; what a line
expands to is Machine/Assembler.lean's `Source.expand`. -/

namespace Sys2Proof

/-- One line of assembly, before its ranges are checked. -/
inductive Source where
  /-- the commands of R76 -/
  | nop | init | stop | drip | u32 | wipe | cmpclr | cmprd
  | absb (b : Nat)
  | xorb (b : Nat)
  | sqz (n : Nat)
  | final (n : Nat)
  | cmpb (x y : Nat)
  | unif (upper : Nat)
  /-- the aliases of R81 -/
  | hsetup | randb | rand32 | ctxzero
  | randu (upper : Nat)
  | hfinal (n : Nat)
  | mfinal (n : Nat)
  /-- the pseudo-instructions of R83 to R92 -/
  | absorb (buf : List Byte)
  | setup (key : List Byte)
  | setupiv (key nonce : List Byte)
  | entropy (buf : List Byte)
  | hupdate (buf : List Byte)
  | mupdate (buf : List Byte)
  | hash (n : Nat) (data : List Byte)
  | msetup (key : List Byte)
  | mac (n : Nat) (msg key : List Byte)
  | crypt (buf : List Byte)
  | compare (bufa bufb : List Byte)
deriving DecidableEq, Repr

end Sys2Proof
end

