-- ==== Sys2Proof/WellFormed.lean ====
section
/-! DEFINITION. What is a legal command, a legal command string and a legal line of assembly.
A decoded command is always legal: "every value of every operand byte is legal" (30_encoding.md R78), and
`Instr`'s operand types carry the widths. Illegal are opcode bytes outside R76, byte strings that are not
one whole command, and assembly operands out of the ranges of R80 and R83 to R92. -/

namespace Sys2Proof

/-- The operand ranges of R73 to R75. The types already carry them, so every command passes
(93_implementation_defined.md: no operand value is reserved). -/
def Instr.wellFormed : Instr → Bool
  | .nop | .init | .stop | .drip | .u32 | .wipe | .cmpclr | .cmprd => true
  | .absb b => b.toNat < 256
  | .xorb b => b.toNat < 256
  | .sqz n => n.toNat < 256
  | .final n => n.toNat < 256
  | .cmpb x y => x.toNat < 256 && y.toNat < 256
  | .unif upper => upper.toNat < 4294967296

/-- A byte string is exactly one command: a legal opcode byte and as many operand bytes as it announces
(R70, R76). -/
def wellFormedBytes : List Byte → Bool
  | [] => false
  | op :: operands => legalOpcode op && operands.length == operandCount op

/-- What the assembler accepts: a byte or count is a number 0..255, the `UNIF` operand 0..4294967295
(R80); buffer lengths are at most the width of SPZ's length argument (R83 to R92); `COMPARE` takes two
buffers of one length (R92). -/
def Source.wellFormed : Source → Bool
  | .nop | .init | .stop | .drip | .u32 | .wipe | .cmpclr | .cmprd => true
  | .hsetup | .randb | .rand32 | .ctxzero => true
  | .absb n | .xorb n | .sqz n | .final n | .hfinal n | .mfinal n => n < 256
  | .cmpb x y => x < 256 && y < 256
  | .unif upper | .randu upper => upper < 4294967296
  | .absorb buf | .entropy buf | .hupdate buf | .mupdate buf | .crypt buf => buf.length < 65536
  | .setup key => key.length < 256
  | .setupiv key nonce => key.length < 256 && nonce.length < 256
  | .hash n data => n < 256 && data.length < 65536
  | .msetup key => key.length < 65536
  | .mac n msg key => n < 256 && msg.length < 65536 && key.length < 65536
  | .compare bufa bufb => bufa.length == bufb.length && bufa.length < 65536

end Sys2Proof
end

