-- ==== Sys2Proof/Machine/Assembler.lean ====
section
/-! DEFINITION. The assembler (30_encoding.md R80 to R92): what a line of source expands to, the bytes a
program becomes, and the text of a line. The block never sees any of it: it sees the expansion's bytes (R82).
Where R80 leaves the text's lexical details open, log entry 18 says what is taken. -/

namespace Sys2Proof.Machine

open Sys2Proof

/-! ### Expansion -/

/-- A number of the source as an operand byte; `Source.wellFormed` has checked its range (R80). -/
def operandByte (n : Nat) : Byte := BitVec.ofNat 8 n

/-- A number of the source as the `UNIF` operand (R80). -/
def operandWord (n : Nat) : Word := BitVec.ofNat 32 n

/-- `ABSORB buf` (R83): one `ABSB` per byte in order; an empty buffer expands to nothing (R82). -/
def expandAbsorb (buf : List Byte) : List Instr := buf.map .absb

/-- `MSETUP key` (R89). -/
def expandMacSetup (key : List Byte) : List Instr := [.init] ++ expandAbsorb key ++ [.stop]

/-- `COMPARE bufa, bufb` (R92). -/
def expandCompare (bufa bufb : List Byte) : List Instr :=
  [.cmpclr] ++ (List.zip bufa bufb).map (fun pair => .cmpb pair.1 pair.2) ++ [.cmprd]

/-- The commands a line stands for: a command is itself, an alias is its command (R81), a pseudo-instruction
expands (R83 to R92). -/
def Source.expand : Source → List Instr
  | .nop => [.nop]
  | .init => [.init]
  | .stop => [.stop]
  | .drip => [.drip]
  | .u32 => [.u32]
  | .wipe => [.wipe]
  | .cmpclr => [.cmpclr]
  | .cmprd => [.cmprd]
  | .absb b => [.absb (operandByte b)]
  | .xorb b => [.xorb (operandByte b)]
  | .sqz n => [.sqz (operandByte n)]
  | .final n => [.final (operandByte n)]
  | .cmpb x y => [.cmpb (operandByte x) (operandByte y)]
  | .unif upper => [.unif (operandWord upper)]
  | .hsetup => [.init]
  | .randb => [.drip]
  | .rand32 => [.u32]
  | .ctxzero => [.wipe]
  | .randu upper => [.unif (operandWord upper)]
  | .hfinal n => [.final (operandByte n)]
  | .mfinal n => [.final (operandByte n)]
  | .absorb buf => expandAbsorb buf
  | .setup key => [.init] ++ expandAbsorb key
  | .setupiv key nonce => [.init] ++ expandAbsorb key ++ [.stop] ++ expandAbsorb nonce
  | .entropy buf => expandAbsorb buf
  | .hupdate buf => expandAbsorb buf
  | .mupdate buf => expandAbsorb buf
  | .hash n data => [.init] ++ expandAbsorb data ++ [.final (operandByte n)]
  | .msetup key => expandMacSetup key
  | .mac n msg key => expandMacSetup key ++ expandAbsorb msg ++ [.final (operandByte n)]
  | .crypt buf => buf.map .xorb
  | .compare bufa bufb => expandCompare bufa bufb

/-- The bytes of commands, in order (R80). -/
def encodeAll (is : List Instr) : List Byte := is.flatMap encode

/-- The bytes of a program, none if the assembler refuses a line (R80, R82). -/
def assemble (lines : List Source) : Option (List Byte) :=
  if lines.all Source.wellFormed then some (encodeAll (lines.flatMap Source.expand)) else none

/-! ### Text (R80) -/

/-- The tokens of a line. -/
inductive Token where
  /-- a mnemonic or a number -/
  | word (chars : List Char)
  | comma
  | openList
  | closeList
  /-- a string literal or a hex string, as its bytes -/
  | bytes (bs : List Byte)
  /-- a one-character literal -/
  | char (c : Char)
deriving DecidableEq, Repr

/-- Where in a token the line reader stands. -/
inductive LexMode where
  | between
  | word (read : List Char)
  | text (read : List Char)
  | hexText (read : List Char)
  | charOpen
  | charRead (c : Char)
  | comment
deriving DecidableEq, Repr

/-- The value of a digit. -/
def digitValue (c : Char) : Option Nat :=
  if '0' ≤ c ∧ c ≤ '9' then some (c.toNat - '0'.toNat)
  else if 'a' ≤ c ∧ c ≤ 'f' then some (c.toNat - 'a'.toNat + 10)
  else if 'A' ≤ c ∧ c ≤ 'F' then some (c.toNat - 'A'.toNat + 10)
  else none

/-- Digits of a base, most significant first, after a value already read. -/
def digitsValue (base : Nat) : Nat → List Char → Option Nat
  | acc, [] => some acc
  | acc, c :: cs =>
    match digitValue c with
    | some d => if d < base then digitsValue base (base * acc + d) cs else none
    | none => none

/-- A decimal or hexadecimal number (R80). -/
def numberOf : List Char → Option Nat
  | '0' :: 'x' :: c :: cs => digitsValue 16 0 (c :: cs)
  | c :: cs => digitsValue 10 0 (c :: cs)
  | [] => none

/-- The ASCII bytes of a string literal (R80). -/
def asciiBytes : List Char → Option (List Byte)
  | [] => some []
  | c :: cs => if c.toNat < 128 then (asciiBytes cs).map (BitVec.ofNat 8 c.toNat :: ·) else none

/-- The bytes of a hex string, two digits a byte (R80). -/
def hexBytes : List Char → Option (List Byte)
  | [] => some []
  | [_] => none
  | h :: l :: cs =>
    match digitValue h, digitValue l, hexBytes cs with
    | some hi, some lo, some bs => some (BitVec.ofNat 8 (16 * hi + lo) :: bs)
    | _, _, _ => none

/-- What a character that begins a token does: the token it is by itself, if any, and the mode after it. -/
def beginToken (c : Char) : List Token × LexMode :=
  if c = ' ' ∨ c = '\t' then ([], .between)
  else if c = ',' then ([.comma], .between)
  else if c = '[' then ([.openList], .between)
  else if c = ']' then ([.closeList], .between)
  else if c = ';' then ([], .comment)
  else if c = '"' then ([], .text [])
  else if c = '\'' then ([], .charOpen)
  else ([], .word [c])

/-- The tokens of a line; a literal left open is refused. A `;` inside a string or character literal is a character of
the literal, and no blank need stand between a mnemonic and an operand that begins with a quote or a bracket
(`ABSB'A'`, `SETUP[1]`): R80 is silent on both and the model chooses so (log entry 18). -/
def tokens : LexMode → List Char → Option (List Token)
  | .between, [] => some []
  | .comment, _ => some []
  | .word read, [] => some [.word read]
  | .text _, [] => none
  | .hexText _, [] => none
  | .charOpen, [] => none
  | .charRead _, [] => none
  | .between, c :: cs => (tokens (beginToken c).2 cs).map ((beginToken c).1 ++ ·)
  | .word read, c :: cs =>
    if c.isAlphanum then tokens (.word (read ++ [c])) cs
    else if c = '"' ∧ read = ['x'] then tokens (.hexText []) cs
    else (tokens (beginToken c).2 cs).map ([.word read] ++ (beginToken c).1 ++ ·)
  | .text read, c :: cs =>
    if c = '"' then
      match asciiBytes read, tokens .between cs with
      | some bs, some ts => some (.bytes bs :: ts)
      | _, _ => none
    else tokens (.text (read ++ [c])) cs
  | .hexText read, c :: cs =>
    if c = '"' then
      match hexBytes read, tokens .between cs with
      | some bs, some ts => some (.bytes bs :: ts)
      | _, _ => none
    else tokens (.hexText (read ++ [c])) cs
  | .charOpen, c :: cs => tokens (.charRead c) cs
  | .charRead c, c' :: cs => if c' = '\'' then (tokens .between cs).map (.char c :: ·) else none

/-- An operand as written: a number or a buffer. -/
inductive Operand where
  | num (n : Nat)
  | buf (bs : List Byte)
deriving DecidableEq, Repr

/-- A token that is a number: decimal, hexadecimal or a one-character ASCII literal (R80). R80 names the literal for
byte and count operands; that it also stands for the `UNIF` operand and for a byte in brackets is the model's
choice (log entry 18). -/
def Token.number : Token → Option Nat
  | .word chars => numberOf chars
  | .char c => if c.toNat < 128 then some c.toNat else none
  | .comma | .openList | .closeList | .bytes _ => none

/-- Where in the operands the reader stands. -/
inductive OperandMode where
  /-- an operand must come -/
  | want
  /-- one has been read: a comma or the end must come -/
  | had
  /-- inside a bracketed list with the bytes read; `true` when a byte may come, `false` when a comma or the
  bracket must -/
  | list (bs : List Byte) (mayRead : Bool)
deriving DecidableEq, Repr

/-- The operands of a line, separated by commas (R80). -/
def operands : OperandMode → List Token → Option (List Operand)
  | .had, [] => some []
  | .want, [] => none
  | .list _ _, [] => none
  | .had, t :: ts => if t = .comma then operands .want ts else none
  | .want, .bytes bs :: ts => (operands .had ts).map (.buf bs :: ·)
  | .want, .openList :: ts => operands (.list [] true) ts
  | .want, t :: ts =>
    match t.number with
    | some n => (operands .had ts).map (.num n :: ·)
    | none => none
  | .list bs mayRead, t :: ts =>
    if t = .closeList ∧ (bs = [] ∨ mayRead = false) then (operands .had ts).map (.buf bs :: ·)
    else if mayRead then
      match t.number with
      | some n => if n < 256 then operands (.list (bs ++ [BitVec.ofNat 8 n]) false) ts else none
      | none => none
    else if t = .comma then operands (.list bs true) ts
    else none

/-- The lines without an operand, by mnemonic (R76, R81). -/
def plainSource : List (String × Source) :=
  [ ("NOP", .nop), ("INIT", .init), ("STOP", .stop), ("DRIP", .drip), ("U32", .u32), ("WIPE", .wipe),
    ("CMPCLR", .cmpclr), ("CMPRD", .cmprd), ("HSETUP", .hsetup), ("RANDB", .randb), ("RAND32", .rand32),
    ("CTXZERO", .ctxzero) ]

/-- The lines of one number (R76, R81). `UNIF` and `RANDU` take a one-character literal too, by the model's choice
(log entry 18). -/
def numberSource : List (String × (Nat → Source)) :=
  [ ("ABSB", .absb), ("XORB", .xorb), ("SQZ", .sqz), ("FINAL", .final), ("UNIF", .unif), ("RANDU", .randu),
    ("HFINAL", .hfinal), ("MFINAL", .mfinal) ]

/-- The lines of one buffer (R83, R84, R86, R87, R89, R91). -/
def bufferSource : List (String × (List Byte → Source)) :=
  [ ("ABSORB", .absorb), ("SETUP", .setup), ("ENTROPY", .entropy), ("HUPDATE", .hupdate),
    ("MUPDATE", .mupdate), ("MSETUP", .msetup), ("CRYPT", .crypt) ]

/-- The lines of two buffers (R85, R92). -/
def buffersSource : List (String × (List Byte → List Byte → Source)) :=
  [ ("SETUPIV", .setupiv), ("COMPARE", .compare) ]

/-- The line of a mnemonic and its operands, if there is one (R80). -/
def sourceOf (mnemonic : String) : List Operand → Option Source
  | [] => plainSource.lookup mnemonic
  | [.num n] => (numberSource.lookup mnemonic).map (· n)
  | [.buf bs] => (bufferSource.lookup mnemonic).map (· bs)
  | [.buf bs, .buf cs] => (buffersSource.lookup mnemonic).map (· bs cs)
  | [.num x, .num y] => if mnemonic = "CMPB" then some (.cmpb x y) else none
  | [.num n, .buf bs] => if mnemonic = "HASH" then some (.hash n bs) else none
  | [.num n, .buf bs, .buf cs] => if mnemonic = "MAC" then some (.mac n bs cs) else none
  | _ => none

/-- What a line of text holds: nothing (blank, or a comment alone), or one line of source; none where it is
refused (R80). -/
def readLine (line : List Char) : Option (List Source) :=
  match tokens .between line with
  | some [] => some []
  | some (.word mnemonic :: ts) =>
    let read := if ts = [] then some [] else operands .want ts
    (read.bind (sourceOf (String.ofList mnemonic))).map ([·])
  | some (_ :: _) => none
  | none => none

/-- The bytes of a program's text, one command per line (R80). -/
def assembleText (lines : List (List Char)) : Option (List Byte) :=
  ((lines.mapM readLine).map List.flatten).bind assemble

end Sys2Proof.Machine
end

