-- ==== Sys2Proof/Machine/Ports.lean ====
section
/-! DEFINITION. The host's side of the ports (00_scope.md R15, 20_memory.md R55 to R57): pushing command
bytes, sampling STATUS, asserting RESET. The response stream is the trace `State.out`. -/

namespace Sys2Proof.Machine

open Sys2Proof

/-- The host pushes one byte into the command stream (R55). -/
def State.push (b : Byte) (s : State) : State := { s with cmd := s.cmd ++ [b] }

/-- The host pushes bytes in order (R55). -/
def State.pushAll (bs : List Byte) (s : State) : State := { s with cmd := s.cmd ++ bs }

/-- The host asserts RESET before the block takes another byte (R240). -/
def State.assertReset (s : State) : State := { s with rst := .high }

/-- The host asserts RESET while the block executes what comes next, after `k` of its response bytes got out
(R242, 93_implementation_defined.md U12). -/
def State.assertResetDuring (k : Nat) (s : State) : State := { s with rst := .during k }

/-- A bit of STATUS at its place. -/
def statusBit (b : Bool) (place : Nat) : Byte := (BitVec.ofBool b).setWidth 8 <<< place

/-- STATUS (10_state.md R36), a view that stores nothing and changes nothing: bit 0 `LIVE`, bit 1 `FAULT`,
bits 3:2 `CAUSE`, bits 4, 5, 6 the configuration, bit 7 zero. -/
def State.status (s : State) : Byte :=
  statusBit s.live 0 ||| statusBit (s.err != 0) 1 ||| ((s.err &&& 0x03#8) <<< 2) |||
    statusBit s.cfg.safeTimingCrush 4 ||| statusBit s.cfg.wipeAfterUsage 5 |||
    statusBit s.cfg.wipeAfterUsageParanoid 6

end Sys2Proof.Machine
end

