-- ==== Sys2Proof/Safety.lean ====
section
/-! DEFINITION. What claims speak of: the invariants of a context (10_state.md R26) and of the whole machine,
and the ways a run can end (70_reset_and_hazards.md R244). -/

namespace Sys2Proof.Machine

open Sys2Proof

/-- The S-box is a permutation of 0..255: every value occurs exactly once (R21). -/
def Engine.IsPermutation (e : Engine) : Prop := Function.Bijective e.load

/-- The stride is odd (R25). -/
def oddByte (w : Byte) : Bool := w.getLsbD 0

/-- What R26 says of a live context: `s` a permutation, `w` odd, `a <= 128`. -/
def Engine.LiveOk (e : Engine) : Prop := e.IsPermutation ∧ oddByte e.w = true ∧ e.a ≤ 0x80#8

/-- Under PARANOID the latches are zero between commands (R33). -/
def State.LatchesClear (s : State) : Prop := s.cfg.wipeAfterUsageParanoid = true → s.t0 = 0 ∧ s.t1 = 0

/-- What holds of the machine between steps, beyond what the types say: the S-box's memory is canonical; a
live context is as R26 says and a dead one is the wiped one (R38, R116); `err` is 0, 1 or 2 (R29) and a
locked block is dead with an empty assembler (R214); under PARANOID the latches are zero (R33); an unfinished
`UNIF` is a live command of bound at least 2 (R153); and what the assembler holds is part of a command
(R34, R55). -/
structure State.Inv (s : State) : Prop where
  memory : Memory.wf s.ctx.s = true
  alive : s.live = true → s.engine.LiveOk
  dead : s.live = false → s.ctx = Ctx.zero
  cause : s.err = 0 ∨ s.err = 1 ∨ s.err = 2
  locked : s.err ≠ 0 → s.live = false ∧ s.asm = []
  latches : s.LatchesClear
  drawing : ∀ upper, s.seq = .drawing upper → s.live = true ∧ s.asm = [] ∧ ¬ upper < 2#32
  partialCommand : decode s.asm = .incomplete

/-- What no command that completes touches: the fault cause, the assembler, the configuration and the host's
side of the ports (10_state.md R40). -/
def State.KeepsPorts (s t : State) : Prop :=
  t.err = s.err ∧ t.asm = s.asm ∧ t.cfg = s.cfg ∧ t.cmd = s.cmd ∧ t.rst = s.rst

/-- Everything but the context, the latches and what a command writes of `pc` and `out` is as before: the
frame of a context command that completes and leaves the context live (R40). -/
def State.KeepsAround (s t : State) : Prop :=
  s.KeepsPorts t ∧ t.live = s.live ∧ t.c = s.c ∧ t.seq = s.seq

/-- The state a context command of length `len` leaves on a dead context, field by field: the `NOT_LIVE` fault
(60_exceptions.md R212, R214). -/
def State.notLive (len : Nat) (s : State) : State :=
  { s with ctx := Ctx.zero, live := false, t0 := 0, t1 := 0, err := 2, asm := [], pc := s.pc + len }

/-- Commands executed one after the other (20_memory.md R60). -/
def execAll : List Instr → State → Result
  | [], s => .next s
  | i :: is, s =>
    match exec i s with
    | .next t => execAll is t
    | .fault r => .fault r
    | .refused r => .refused r

/-- The engine after `k` draws of four drips. -/
def Engine.afterDraws (cfg : Cfg) (k : Nat) (e : Engine) : Engine := (fun e => (e.draw cfg).engine)^[k] e

/-- The `k`-th draw, from 0 (42_keystream_crypt.md R153). -/
def Engine.nthDraw (cfg : Cfg) (k : Nat) (e : Engine) : Draw := (e.afterDraws cfg k).draw cfg

/-- Two machines that a host cannot tell apart but for the configuration bits of STATUS: everything but the
configuration, the latches and the count of free values is the same (R8, R33). -/
def State.SameToTheHost (s t : State) : Prop :=
  t.ctx = s.ctx ∧ t.live = s.live ∧ t.err = s.err ∧ t.c = s.c ∧ t.asm = s.asm ∧ t.seq = s.seq ∧ t.pc = s.pc ∧
    t.out = s.out ∧ t.cmd = s.cmd ∧ t.rst = s.rst

/-- The block is locked (60_exceptions.md R215). -/
def State.locked (s : State) : Bool := s.err != 0

/-- The run of a program of `len` bytes has ended well (R244): every byte consumed, the assembler empty, the
sequencer idle, no fault. -/
def State.endedWell (len : Nat) (s : State) : Bool :=
  s.pc == len && s.cmd.isEmpty && s.asm.isEmpty && s.seq == .idle && s.err == 0

/-- The run has faulted (R244): no result. -/
def State.hasFaulted (s : State) : Bool := s.err != 0

/-- The run is incomplete (R79, R244): the stream ended inside a command. -/
def State.isIncomplete (s : State) : Bool := s.cmd.isEmpty && !s.asm.isEmpty

/-- A `UNIF` has not finished (R244, R249); if it never does, the run hangs. -/
def State.isDrawing (s : State) : Bool := s.seq != .idle

end Sys2Proof.Machine
end

