-- ==== Sys2Proof/Certificates/Slice0/Obligations.lean ====
section
/-! DEFINITION. The statements about the machine, from the spec's numbered rules. Each docstring names the
rule; OBLIGATIONS.json says which of them are stated whole. No statement rests on the value of a free value
(`Config.freeLatch`, `State.fresh`) or of `Config.buildCfg`. -/

open Sys2Proof Sys2Proof.Machine

/-! ### Reset (10_state.md R38, 70_reset_and_hazards.md R240 to R242) -/

/-- R38: the reset state, of every configuration; `State.reset` is that of the build. -/
def Obligations.ResetStateIsAllZero : Prop :=
  (∀ cfg : Cfg,
    let s := State.resetWith cfg
    (∀ x : Byte, Memory.read s.ctx.s x.toNat = 0) ∧
    s.ctx.i = 0 ∧ s.ctx.j = 0 ∧ s.ctx.k = 0 ∧ s.ctx.z = 0 ∧ s.ctx.a = 0 ∧ s.ctx.w = 0 ∧
    s.live = false ∧ s.err = 0 ∧ s.c = 0 ∧ s.t0 = 0 ∧ s.t1 = 0 ∧ s.asm = [] ∧ s.seq = .idle ∧
    s.pc = 0 ∧ s.out = [] ∧ s.cfg = cfg) ∧
  State.reset = State.resetWith Config.buildCfg

/-- R38, R241: asserting RESET in any state brings every piece of state but `cfg` to its reset value, `pc` among
them; the trace keeps the bytes that were emitted (R242). -/
def Obligations.ResetInputResetsEverything : Prop :=
  ∀ s : State, s.rst = .high → ∃ t, step s = .next t ∧
    (∀ x : Byte, Memory.read t.ctx.s x.toNat = 0) ∧
    t.ctx.i = 0 ∧ t.ctx.j = 0 ∧ t.ctx.k = 0 ∧ t.ctx.z = 0 ∧ t.ctx.a = 0 ∧ t.ctx.w = 0 ∧
    t.t0 = 0 ∧ t.t1 = 0 ∧ t.live = false ∧ t.err = 0 ∧ t.c = 0 ∧ t.asm = [] ∧ t.seq = .idle ∧ t.pc = 0 ∧
    t.out = s.out ∧ t.cfg = s.cfg

/-- R242: RESET inside what the block does next leaves the reset state, and of the bytes that would have been
emitted exactly a prefix; its length is an input of the model (log entry 8). -/
def Obligations.ResetCutsACommandShort : Prop :=
  ∀ (s u : State) (k : Nat) (emitted : List Byte), s.rst = .during k → s.run = .next u →
    u.out = s.out ++ emitted → ∃ t, step s = .next t ∧
    t.out = s.out ++ emitted.take k ∧ t.ctx = Ctx.zero ∧ t.live = false ∧ t.err = 0 ∧ t.c = 0 ∧
    t.t0 = 0 ∧ t.t1 = 0 ∧ t.asm = [] ∧ t.seq = .idle ∧ t.pc = 0 ∧ t.cfg = s.cfg

/-! ### Invariants (10_state.md R26) -/

/-- The machine's invariant holds at reset, whatever the configuration. -/
def Obligations.ResetSatisfiesTheInvariant : Prop := State.reset.Inv ∧ ∀ cfg, (State.resetWith cfg).Inv

/-- Every step keeps the machine's invariant: canonical S-box memory, a live context as R26 says, a dead one
wiped, `err` legal, a locked block dead, latches clear under PARANOID, an unfinished `UNIF` live, the
assembler's bytes part of a command. -/
def Obligations.StepKeepsTheInvariant : Prop := ∀ s t : State, s.Inv → step s = .next t → t.Inv

/-- R26: after every command that leaves the context live, `s` is a permutation, `w` is odd and `a <= 128`. -/
def Obligations.LiveContextInvariants : Prop :=
  ∀ (i : Instr) (s t : State), (s.live = true → s.engine.LiveOk) → exec i s = .next t → t.live = true →
    Function.Bijective t.engine.load ∧ t.ctx.w.getLsbD 0 = true ∧ t.ctx.a ≤ 0x80#8

/-! ### Encoding (30_encoding.md R70 to R79) -/

/-- Decoding the bytes of a command, with anything after them, gives the command and what comes after. -/
def Obligations.DecodeInvertsEncode : Prop :=
  ∀ (i : Instr) (rest : List Byte), decode (encode i ++ rest) = .ok i rest

/-- Bytes that decode to a command are that command's bytes: each command has one encoding. -/
def Obligations.EncodeInvertsDecode : Prop :=
  ∀ (bytes : List Byte) (i : Instr) (rest : List Byte), decode bytes = .ok i rest → bytes = encode i ++ rest

/-- R70: bits 7:6 of the opcode byte alone decide a command's length; nothing before it and nothing after it
changes that, and a command whose bytes have not all arrived is awaited. -/
def Obligations.LengthByTopTwoBits : Prop :=
  ∀ (op : Byte) (operands : List Byte),
    let n := match (op.extractLsb' 6 2).toNat with | 0 => 0 | 1 => 1 | 2 => 2 | _ => 4
    (∀ (i : Instr) (rest : List Byte), decode (op :: operands) = .ok i rest →
      operands.length = n + rest.length ∧ i.length = 1 + n ∧ encode i = op :: operands.take n) ∧
    (legalOpcode op = true →
      (n ≤ operands.length → ∃ i, decode (op :: operands) = .ok i (operands.drop n)) ∧
      (operands.length < n → decode (op :: operands) = .incomplete))

/-- R78, R211: exactly the 242 other opcode bytes are illegal, whatever follows them; each faults as soon as it
is accepted, awaits no operand byte, and advances `pc` by 1; and no operand value of a legal opcode is
reserved. -/
def Obligations.OtherOpcodesFaultAtOnce : Prop :=
  ∀ (op : Byte) (operands : List Byte),
    let illegal := (0x08#8 ≤ op ∧ op ≤ 0x3F#8) ∨ (0x44#8 ≤ op ∧ op ≤ 0x7F#8) ∨
      (0x81#8 ≤ op ∧ op ≤ 0xBF#8) ∨ 0xC1#8 ≤ op
    (illegal → ∀ s : State, s.rst = .low → s.seq = .idle → s.err = 0 → s.asm = [] → s.cmd = op :: operands →
      step s = .next { s with
        ctx := Ctx.zero, live := false, t0 := 0, t1 := 0, err := 1, cmd := operands, pc := s.pc + 1 }) ∧
    (¬ illegal → 4 ≤ operands.length → ∃ i rest, decode (op :: operands) = .ok i rest)

/-- A word of each format, written out from R76 and R72 to R75, decodes to its command; the `UNIF` operand comes
most significant byte first; an operand byte is not read as an opcode (R77). -/
def Obligations.SampleWordsDecode : Prop :=
  decode [0x00#8] = .ok .nop [] ∧ decode [0x03#8, 0x01#8] = .ok .drip [0x01#8] ∧
  decode [0x05#8] = .ok .wipe [] ∧ decode [0x40#8, 0xC0#8] = .ok (.absb 0xC0#8) [] ∧
  decode [0x43#8, 0x20#8, 0x03#8] = .ok (.final 0x20#8) [0x03#8] ∧
  decode [0x80#8, 0x03#8, 0x04#8] = .ok (.cmpb 0x03#8 0x04#8) [] ∧
  decode [0xC0#8, 0x00#8, 0x0F#8, 0x42#8, 0x40#8] = .ok (.unif 1000000#32) [] ∧
  decode [0x40#8] = .incomplete ∧ decode [0xFF#8, 0x01#8] = .illegalOpcode [0x01#8]

/-! ### The step (30_encoding.md R77, 20_memory.md R55, R60) -/

/-- When the bytes that have arrived decode to a command, the step takes exactly its bytes and executes it. -/
def Obligations.StepRunsTheDecodedCommand : Prop :=
  ∀ (s : State) (i : Instr) (rest : List Byte), s.rst = .low → s.seq = .idle → s.err = 0 →
    decode (s.asm ++ s.cmd) = .ok i rest → step s = exec i { s with asm := [], cmd := rest }

/-- R79: inside a command the block keeps what has arrived and waits, for ever if nothing more comes; that is
no end of a run; RESET discards the partial command. That one step moves all the bytes that have arrived, and
that a waiting block steps to itself, is the model's choice (log entry 1). -/
def Obligations.PartialCommandWaits : Prop :=
  ∀ s : State, s.rst = .low → s.seq = .idle → s.err = 0 → decode (s.asm ++ s.cmd) = .incomplete →
    let held := { s with asm := s.asm ++ s.cmd, cmd := [] }
    step s = .next held ∧ step held = .next held ∧
    (s.asm ++ s.cmd ≠ [] → ∀ n, held.endedWell n = false) ∧
    ∃ t, step held.assertReset = .next t ∧ t.asm = []

/-- R55: it makes no difference whether the bytes of a command arrive at once or in pieces. -/
def Obligations.BytesMayArriveInPieces : Prop :=
  ∀ (s t : State) (more : List Byte), s.rst = .low → s.seq = .idle → s.err = 0 →
    decode (s.asm ++ s.cmd) = .incomplete → step s = .next t →
    step (t.pushAll more) = step (s.pushAll more)

/-- No command and no byte stops the machine: every step answers a next state. R218 makes the commands total on
their operands. The rest is the model's choice: a waiting block steps to itself (log entry 1), a `UNIF` that hangs
steps for ever (log entry 6), a whole command on a locked block is discarded (log entry 9), and `Fault` has no
constructor (log entry 10). -/
def Obligations.EveryStepAnswersANextState : Prop :=
  (∀ (i : Instr) (s : State), ∃ t, exec i s = .next t) ∧ ∀ s : State, ∃ t, step s = .next t

/-- R27, R130: a command that completes advances `pc` by its length, and so does one that faults; an unfinished
`UNIF` has not advanced it yet (log entry 7). -/
def Obligations.PcAdvancesByTheLength : Prop :=
  ∀ (i : Instr) (s t : State), s.seq = .idle → exec i s = .next t →
    (t.seq = .idle → t.pc = s.pc + i.length) ∧ (t.seq ≠ .idle → t.pc = s.pc ∧ ∃ upper, i = .unif upper)

/-- R93: how many response bytes each command emits when it does not fault; one that faults emits none. -/
def Obligations.ResponseCountsAreFixed : Prop :=
  ∀ (i : Instr) (s t : State), s.err = 0 → s.seq = .idle → exec i s = .next t → t.seq = .idle →
    ∃ emitted, t.out = s.out ++ emitted ∧
      (t.err = 0 → emitted.length =
        match i with
        | .drip | .xorb _ | .cmprd => 1
        | .u32 | .unif _ => 4
        | .sqz n | .final n => n.toNat
        | .nop | .init | .stop | .wipe | .cmpclr | .absb _ | .cmpb _ _ => 0) ∧
      (t.err ≠ 0 → emitted = [])

/-- The response stream only grows: no step takes back, changes or reorders a byte (20_memory.md R56, R242). -/
def Obligations.ResponseStreamOnlyGrows : Prop :=
  ∀ s t : State, step s = .next t → ∃ emitted, t.out = s.out ++ emitted

/-! ### Faults (60_exceptions.md) -/

/-- R212, R214: each of the eight context commands on a dead context takes the `NOT_LIVE` fault, with no other
effect than fault entry and the advance of `pc` by its length. -/
def Obligations.DeadContextFaults : Prop :=
  ∀ (i : Instr) (s : State), i.needsLive = true → s.live = false → s.err = 0 →
    exec i s = .next { s with
      ctx := Ctx.zero, live := false, t0 := 0, t1 := 0, err := 2, asm := [], pc := s.pc + i.length } ∧
    exec i s = .next (s.notLive i.length)

/-- R210: a step of an unlocked block faults with cause 1 exactly by an illegal opcode and with cause 2 exactly by
one of the eight context commands on a dead context; no other code is ever produced. -/
def Obligations.ExactlyTwoFaults : Prop :=
  (∀ s t : State, s.rst = .low → s.seq = .idle → s.err = 0 → step s = .next t →
    (t.err = 0 ∨ t.err = 1 ∨ t.err = 2) ∧
    (t.err = 1 ↔ ∃ rest, decode (s.asm ++ s.cmd) = .illegalOpcode rest) ∧
    (t.err = 2 ↔ s.live = false ∧ ∃ i rest, decode (s.asm ++ s.cmd) = .ok i rest ∧ i.needsLive = true)) ∧
  (∀ i : Instr, i.needsLive = true ↔ i = .stop ∨ i = .drip ∨ i = .u32 ∨ (∃ b, i = .absb b) ∨ (∃ b, i = .xorb b) ∨
    (∃ n, i = .sqz n) ∨ (∃ n, i = .final n) ∨ ∃ upper, i = .unif upper)

/-- R215: a locked block discards every byte, one at a time, with `pc <- pc + 1` and no other effect; no command
executes; STATUS stays readable; the locked state is no successful end of a run. -/
def Obligations.LockedBlockDiscards : Prop :=
  ∀ s : State, s.err ≠ 0 →
    (s.rst = .low → s.seq = .idle →
      (∀ (b : Byte) (rest : List Byte), s.cmd = b :: rest →
        step s = .next { s with cmd := rest, pc := s.pc + 1 }) ∧
      (s.cmd = [] → step s = .next s) ∧
      ∀ t, step s = .next t → t.status = s.status) ∧
    ∀ n, s.endedWell n = false

/-- R29, R216: no step but a RESET clears `err` or changes it once it is set; a step sets it only from 0, to 1 or
2. -/
def Obligations.OnlyResetClearsErr : Prop :=
  (∀ s t : State, step s = .next t →
    t.err = s.err ∨ (s.err = 0 ∧ (t.err = 1 ∨ t.err = 2)) ∨ (s.rst ≠ .low ∧ t.err = 0)) ∧
  ∀ (i : Instr) (s t : State), exec i s = .next t → s.err ≠ 0 → t.err = s.err

/-- R28, R176: what each command leaves of `live`, on an unlocked block. -/
def Obligations.LiveFollowsTheLifecycle : Prop :=
  ∀ (i : Instr) (s t : State), s.err = 0 → exec i s = .next t →
    t.live = (match i with
      | .init => true
      | .wipe => false
      | .final _ => s.live && !s.cfg.wipeAfterUsage
      | .nop | .stop | .drip | .u32 | .cmpclr | .cmprd | .absb _ | .xorb _ | .sqz _ | .cmpb _ _ | .unif _ => s.live)

/-! ### Context creation and absorbing (41_setup_absorb.md) -/

/-- R131: `NOP`, opcode 0x00, changes nothing but `pc`, on a live and on a dead context. -/
def Obligations.NopOnlyAdvancesPc : Prop :=
  encode .nop = [0x00#8] ∧
  ∀ s : State, s.err = 0 → s.LatchesClear → exec .nop s = .next { s with pc := s.pc + 1 }

/-- R132, R115: `INIT`, opcode 0x01, makes the context the identity S-box with `w = 1` and sets `live`, whatever
the context was. -/
def Obligations.InitCreatesTheContext : Prop :=
  encode .init = [0x01#8] ∧ Source.expand .hsetup = [.init] ∧
  ∀ s : State, s.err = 0 → ∃ t, exec .init s = .next t ∧
    (∀ v : Byte, Memory.read t.ctx.s v.toNat = v) ∧ Memory.wf t.ctx.s = true ∧
    t.ctx.i = 0 ∧ t.ctx.j = 0 ∧ t.ctx.k = 0 ∧ t.ctx.z = 0 ∧ t.ctx.a = 0 ∧ t.ctx.w = 1 ∧ t.live = true ∧
    t.pc = s.pc + 1 ∧ t.out = s.out ∧ t.c = s.c ∧ t.seq = s.seq ∧ s.KeepsPorts t

/-- R133, R109: `ABSB b`, opcode 0x40, absorbs the low nibble, then the high nibble, and emits nothing. On a dead
context it faults. -/
def Obligations.AbsbAbsorbsTwoNibbles : Prop :=
  ∀ b : Byte, encode (.absb b) = [0x40#8, b] ∧
  (∀ s : State, s.err = 0 → s.live = false → exec (.absb b) s = .next (s.notLive 2)) ∧
  ∀ s : State, s.err = 0 → s.live = true → ∃ t, exec (.absb b) s = .next t ∧
    t.ctx = ((s.engine.absorbNibble s.cfg (b.extractLsb' 0 4)).absorbNibble s.cfg (b.extractLsb' 4 4)).toCtx ∧
    t.out = s.out ∧ t.pc = s.pc + 2 ∧ s.KeepsAround t ∧ t.LatchesClear

/-- R53: with room for two absorb steps (`a <= 126`), `ABSB` exchanges `s[a]` with `s[128 + low]` and then
`s[a + 1]` with `s[128 + high]`; every other byte of the S-box, and every other register, is as before. -/
def Obligations.AbsbStoresOnlyInTheAbsorbRegion : Prop :=
  ∀ (b : Byte) (s : State), s.err = 0 → s.live = true → Memory.wf s.ctx.s = true → s.ctx.a ≤ 126#8 →
    let low := nibbleAddr (lowNibble b)
    let high := nibbleAddr (highNibble b)
    ∃ t, exec (.absb b) s = .next t ∧ t.ctx.a = s.ctx.a + 2 ∧
      (∀ x : Byte, Memory.read t.ctx.s x.toNat =
        Memory.read s.ctx.s (Equiv.swap s.ctx.a low (Equiv.swap (s.ctx.a + 1) high x)).toNat) ∧
      (∀ x : Byte, x ≠ s.ctx.a → x ≠ s.ctx.a + 1 → x ≠ low → x ≠ high →
        Memory.read t.ctx.s x.toNat = Memory.read s.ctx.s x.toNat) ∧
      t.ctx.i = s.ctx.i ∧ t.ctx.j = s.ctx.j ∧ t.ctx.k = s.ctx.k ∧ t.ctx.z = s.ctx.z ∧ t.ctx.w = s.ctx.w

/-- R134, R111: `STOP`, opcode 0x02, shuffles first when `a = 128` and then counts one absorb step; without the
shuffle no byte of the S-box and no other register changes. On a dead
context it faults. -/
def Obligations.StopCountsOneStep : Prop :=
  encode .stop = [0x02#8] ∧
  (∀ s : State, s.err = 0 → s.live = false → exec .stop s = .next (s.notLive 1)) ∧
  ∀ s : State, s.err = 0 → s.live = true → ∃ t, exec .stop s = .next t ∧
    (s.ctx.a = 0x80#8 → t.ctx = { s.engine.shuffle s.cfg with a := 1 }.toCtx) ∧
    (s.ctx.a ≠ 0x80#8 → Memory.wf s.ctx.s = true → t.ctx = { s.ctx with a := s.ctx.a + 1 }) ∧
    t.out = s.out ∧ t.pc = s.pc + 1 ∧ s.KeepsAround t ∧ t.LatchesClear

/-! ### Micro-operations (40_primitives.md) -/

/-- R101: `swap` exchanges two entries, nothing when they are one, and touches no register. -/
def Obligations.SwapExchangesTwoEntries : Prop :=
  ∀ (e : Engine) (x y : Byte),
    (e.swap x y).load x = e.load y ∧ (e.swap x y).load y = e.load x ∧
    (∀ v, v ≠ x → v ≠ y → (e.swap x y).load v = e.load v) ∧ e.swap x x = e ∧
    (e.swap x y).i = e.i ∧ (e.swap x y).j = e.j ∧ (e.swap x y).k = e.k ∧ (e.swap x y).z = e.z ∧
    (e.swap x y).a = e.a ∧ (e.swap x y).w = e.w

/-- R102: `update`'s assignments in their order, then the swap; `z`, `a` and `w` stay, and so does the S-box when
the new `i` and `j` are equal. -/
def Obligations.UpdateMixesOnce : Prop :=
  ∀ e : Engine,
    let i' := e.i + e.w
    let j' := e.k + e.load (e.j + e.load i')
    let k' := i' + e.k + e.load j'
    e.update.i = i' ∧ e.update.j = j' ∧ e.update.k = k' ∧
    e.update.load i' = e.load j' ∧ e.update.load j' = e.load i' ∧
    (∀ v, v ≠ i' → v ≠ j' → e.update.load v = e.load v) ∧
    (i' = j' → e.update.s = e.s) ∧ e.update.z = e.z ∧ e.update.a = e.a ∧ e.update.w = e.w

/-- R103, R107: `whip(r)` is `r` updates and then `w + 2`; `shuffle` is `whip(512)`, `crush`, `whip(512)`, `crush`,
`whip(512)` and then `a = 0`, and leaves `z`. R104, which the spec infers from R102, R103 and R115: `w` starts odd
and stays odd: only `whip` changes it, by 2; an odd stride takes `update`'s `i` through every S-box index in 256
steps; `whip(512)` and `shuffle` bring `i` back. -/
def Obligations.StrideStaysOdd : Prop :=
  Engine.initial.w = 1 ∧
  ∀ e : Engine,
    (∀ r, let u := Engine.update^[r] e
      e.whip r = { u with w := u.w + 2 } ∧ u.w = e.w ∧ (e.whip r).z = e.z ∧ (e.whip r).a = e.a) ∧
    (∀ cfg, e.shuffle cfg = { ((((e.whip 512).crush cfg).whip 512).crush cfg).whip 512 with a := 0 } ∧
      (e.shuffle cfg).z = e.z) ∧
    (∀ r, (e.whip r).w.getLsbD 0 = e.w.getLsbD 0) ∧ e.update.w = e.w ∧
    (∀ x y, (e.swap x y).w = e.w) ∧ (∀ cfg, (e.crush cfg).w = e.w) ∧ e.output.engine.w = e.w ∧
    (∀ cfg, (e.shuffle cfg).w = e.w + 6 ∧ (e.shuffle cfg).i = e.i) ∧ (e.whip 512).i = e.i ∧
    (e.w.getLsbD 0 = true → ∀ v : Byte, ∃ n ≤ 255, (Engine.update^[n] e).i = v)

/-- R105: `crush` exchanges the entries of a pair `(p, 255 - p)` exactly when the first is the greater; of a
permutation, the smaller of each pair then stands first; registers are unchanged. -/
def Obligations.CrushSortsEveryPair : Prop :=
  ∀ (cfg : Cfg) (e : Engine),
    (∀ p : Byte, p ≤ 127#8 →
      (e.crush cfg).load p = (if e.load p > e.load (255#8 - p) then e.load (255#8 - p) else e.load p) ∧
      (e.crush cfg).load (255#8 - p) = (if e.load p > e.load (255#8 - p) then e.load p else e.load (255#8 - p)) ∧
      (Function.Bijective e.load → (e.crush cfg).load p < (e.crush cfg).load (255#8 - p))) ∧
    (e.crush cfg).i = e.i ∧ (e.crush cfg).j = e.j ∧ (e.crush cfg).k = e.k ∧ (e.crush cfg).z = e.z ∧
    (e.crush cfg).a = e.a ∧ (e.crush cfg).w = e.w

/-- R106: the mask is 0xFF exactly when `t0 > t1`; the masked pair step stores the smaller value first, leaves
what the plain pair step leaves, and so `crush` does not depend on `SAFE_TIMING_CRUSH`. -/
def Obligations.MaskedCrushEqualsPlainCrush : Prop :=
  (∀ t0 t1 : Byte, crushMask t0 t1 = if t1.toNat < t0.toNat then 0xFF#8 else 0x00#8) ∧
  (∀ (e : Engine) (p q : Byte), p ≠ q →
    ((e.crushPairMasked p q).load p).toNat = min (e.load p).toNat (e.load q).toNat ∧
    ((e.crushPairMasked p q).load q).toNat = max (e.load p).toNat (e.load q).toNat) ∧
  (∀ (e : Engine) (p q : Byte), e.crushPairMasked p q = e.crushPairPlain p q) ∧
  ∀ (cfg cfg' : Cfg) (e : Engine), e.crush cfg = e.crush cfg'

/-- R108: an absorb step exchanges `s[a]` with `s[128 + x]` and counts one; at `a = 128` it shuffles first. -/
def Obligations.AbsorbNibbleSwapsAndCounts : Prop :=
  ∀ (cfg : Cfg) (e : Engine) (x : BitVec 4),
    let y := 128#8 + x.setWidth 8
    let e' := e.absorbNibble cfg x
    (e.a ≠ 0x80#8 → e'.load e.a = e.load y ∧ e'.load y = e.load e.a ∧
      (∀ v, v ≠ e.a → v ≠ y → e'.load v = e.load v) ∧ e'.a = e.a + 1 ∧
      e'.i = e.i ∧ e'.j = e.j ∧ e'.k = e.k ∧ e'.z = e.z ∧ e'.w = e.w) ∧
    (e.a = 0x80#8 → e' = (e.shuffle cfg).absorbNibble cfg x ∧ e'.a = 1)

/-- R112: `output` is `update` and then three dependent reads with the new `i`, `j`, `k` and the old `z`; the
byte is the new `z`; `a` and `w` stay. -/
def Obligations.OutputReadsThreeTimes : Prop :=
  ∀ e : Engine,
    let u := e.update
    let z' := u.load (u.j + u.load (u.i + u.load (e.z + u.k)))
    e.output.byte = z' ∧ e.output.engine = { u with z := z' } ∧
    e.output.engine.a = e.a ∧ e.output.engine.w = e.w

/-- R113: `drip` shuffles first exactly when `a > 0`, returns `output`'s byte, and leaves `a = 0`. -/
def Obligations.DripShufflesAbsorbedInput : Prop :=
  ∀ (cfg : Cfg) (e : Engine),
    (e.a ≠ 0 → e.drip cfg = (e.shuffle cfg).output) ∧ (e.a = 0 → e.drip cfg = e.output) ∧
    (e.drip cfg).engine.a = 0

/-- R117: every micro-operation keeps the S-box a permutation; `initialize` makes one; `ctx_wipe` does not, and
clears `live`. -/
def Obligations.MicroOperationsKeepThePermutation : Prop :=
  (∀ (cfg : Cfg) (e : Engine), Function.Bijective e.load →
    (∀ x y, Function.Bijective (e.swap x y).load) ∧ Function.Bijective e.update.load ∧
    (∀ r, Function.Bijective (e.whip r).load) ∧
    (∀ p q, Function.Bijective (e.crushPairPlain p q).load ∧ Function.Bijective (e.crushPairMasked p q).load) ∧
    Function.Bijective (e.crush cfg).load ∧ Function.Bijective (e.shuffle cfg).load ∧
    (∀ x, Function.Bijective (e.absorbNibble cfg x).load) ∧ (∀ b, Function.Bijective (e.absorbByte cfg b).load) ∧
    Function.Bijective (e.absorbStop cfg).load ∧ Function.Bijective e.output.engine.load ∧
    Function.Bijective (e.drip cfg).engine.load ∧ ∀ n, Function.Bijective (e.squeeze cfg n).engine.load) ∧
  Function.Bijective Engine.initial.load ∧
  ∀ s : State, ¬ Function.Bijective s.ctxWipe.engine.load ∧ s.ctxWipe.live = false

/-- R118: the bounds on `a`. -/
def Obligations.AbsorbCountStaysBounded : Prop :=
  ∀ (cfg : Cfg) (e : Engine), e.a ≤ 0x80#8 →
    (∀ x, 1#8 ≤ (e.absorbNibble cfg x).a ∧ (e.absorbNibble cfg x).a ≤ 0x80#8) ∧
    1#8 ≤ (e.absorbStop cfg).a ∧ (e.absorbStop cfg).a ≤ 0x80#8 ∧ (e.shuffleIfFull cfg).a ≤ 127#8 ∧
    (e.shuffle cfg).a = 0 ∧ (e.drip cfg).engine.a = 0 ∧ (∀ n, 1 ≤ n → (e.squeeze cfg n).engine.a = 0) ∧
    Engine.initial.a = 0

/-! ### Keystream and XOR path (42_keystream_crypt.md) -/

/-- R150: `DRIP`, opcode 0x03, emits the byte `drip` returns, which is then `z`, and leaves `a = 0`. On a dead
context it faults. -/
def Obligations.DripEmitsOneByte : Prop :=
  encode .drip = [0x03#8] ∧ Source.expand .randb = [.drip] ∧
  (∀ s : State, s.err = 0 → s.live = false → exec .drip s = .next (s.notLive 1)) ∧
  ∀ s : State, s.err = 0 → s.live = true →
    let d := s.engine.drip s.cfg
    ∃ t, exec .drip s = .next t ∧ t.ctx = d.engine.toCtx ∧ t.out = s.out ++ [d.byte] ∧ t.ctx.z = d.byte ∧
      t.ctx.a = 0 ∧ t.pc = s.pc + 1 ∧ s.KeepsAround t ∧ t.LatchesClear

/-- R112, R150: a `DRIP` with nothing absorbed stores to two S-box entries only, `s[i]` and `s[j]` after the
update, and exchanges them. -/
def Obligations.DripWithNothingAbsorbedSwapsOnce : Prop :=
  ∀ s : State, s.err = 0 → s.live = true → Memory.wf s.ctx.s = true → s.ctx.a = 0 →
    ∃ t, exec .drip s = .next t ∧ t.ctx.i = s.ctx.i + s.ctx.w ∧ t.ctx.w = s.ctx.w ∧
      Memory.read t.ctx.s t.ctx.i.toNat = Memory.read s.ctx.s t.ctx.j.toNat ∧
      Memory.read t.ctx.s t.ctx.j.toNat = Memory.read s.ctx.s t.ctx.i.toNat ∧
      ∀ x : Byte, x ≠ t.ctx.i → x ≠ t.ctx.j → Memory.read t.ctx.s x.toNat = Memory.read s.ctx.s x.toNat

/-- R151: `SQZ n`, opcode 0x42, has exactly the effect of `n` consecutive `DRIP`s on the context and the response
stream; `SQZ 0` changes nothing but `pc`. On a dead
context it faults. -/
def Obligations.SqzIsConsecutiveDrips : Prop :=
  ∀ n : Byte, encode (.sqz n) = [0x42#8, n] ∧
  (∀ s : State, s.err = 0 → s.live = false → exec (.sqz n) s = .next (s.notLive 2)) ∧
  ∀ s : State, s.err = 0 → s.live = true → Memory.wf s.ctx.s = true →
    ∃ t u, exec (.sqz n) s = .next t ∧ execAll (List.replicate n.toNat .drip) s = .next u ∧
      t.ctx = u.ctx ∧ t.out = u.out ∧ t.out.length = s.out.length + n.toNat ∧ t.pc = s.pc + 2 ∧ s.KeepsAround t ∧ s.KeepsAround u ∧ t.LatchesClear ∧
      (n = 0 → s.LatchesClear → t = { s with pc := s.pc + 2 })

/-- R152: `U32`, opcode 0x04, emits four drips in drip order, the bytes of their 32-bit value most significant
first: the same as `SQZ 4`. On a dead
context it faults. -/
def Obligations.U32EmitsFourDrips : Prop :=
  encode .u32 = [0x04#8] ∧ Source.expand .rand32 = [.u32] ∧
  (∀ s : State, s.err = 0 → s.live = false → exec .u32 s = .next (s.notLive 1)) ∧
  ∀ s : State, s.err = 0 → s.live = true →
    let d0 := s.engine.drip s.cfg
    let d1 := d0.engine.drip s.cfg
    let d2 := d1.engine.drip s.cfg
    let d3 := d2.engine.drip s.cfg
    ∃ t u, exec .u32 s = .next t ∧ t.ctx = d3.engine.toCtx ∧
      t.out = s.out ++ [d0.byte, d1.byte, d2.byte, d3.byte] ∧
      t.out = s.out ++ bytesOfWord (wordOfBytes d0.byte d1.byte d2.byte d3.byte) ∧
      t.pc = s.pc + 1 ∧ s.KeepsAround t ∧ t.LatchesClear ∧
      exec (.sqz 4) s = .next u ∧ u.out = t.out ∧ u.ctx = t.ctx

/-- R58, R75: 32-bit values are assembled most significant byte first, and taken apart the same way. -/
def Obligations.WordsAreMostSignificantByteFirst : Prop :=
  (∀ b0 b1 b2 b3 : Byte, (wordOfBytes b0 b1 b2 b3).toNat =
    b0.toNat * 2 ^ 24 + b1.toNat * 2 ^ 16 + b2.toNat * 2 ^ 8 + b3.toNat ∧
    bytesOfWord (wordOfBytes b0 b1 b2 b3) = [b0, b1, b2, b3]) ∧
  ∀ v : Word, ∃ b0 b1 b2 b3, bytesOfWord v = [b0, b1, b2, b3] ∧ wordOfBytes b0 b1 b2 b3 = v

/-- R153: `UNIF upper`, opcode 0xC0: `upper < 2` emits four zero bytes and leaves the context alone; otherwise the
first draw not below `min` is accepted and emitted modulo `upper`, most significant byte first (here: within the
draws of one step, log entry 6). On a dead context it faults before it looks at `upper`. `RANDU` is it (R81). That
the latches stay when `upper < 2` is the model's choice (log entry 5). -/
def Obligations.UnifEmitsTheFirstAcceptedDraw : Prop :=
  ∀ upper : Word,
  encode (.unif upper) = [0xC0#8, upper.extractLsb' 24 8, upper.extractLsb' 16 8, upper.extractLsb' 8 8,
    upper.extractLsb' 0 8] ∧
  Source.expand (.randu upper.toNat) = [.unif upper] ∧
  (∀ s : State, s.err = 0 → s.live = false → exec (.unif upper) s = .next (s.notLive 5)) ∧
  (upper.toNat < 2 → ∀ s : State, s.err = 0 → s.live = true → s.LatchesClear →
    exec (.unif upper) s = .next { s with out := s.out ++ [0, 0, 0, 0], pc := s.pc + 5 }) ∧
  (2 ≤ upper.toNat → ∀ (s : State) (k : Nat), s.err = 0 → s.live = true → s.seq = .idle →
    k < Config.drawsPerStep →
    (∀ n < k, (s.engine.nthDraw s.cfg n).word.toNat < (2 ^ 32 - upper.toNat) % upper.toNat) →
    (2 ^ 32 - upper.toNat) % upper.toNat ≤ (s.engine.nthDraw s.cfg k).word.toNat →
    ∃ t v, exec (.unif upper) s = .next t ∧
      v.toNat = (s.engine.nthDraw s.cfg k).word.toNat % upper.toNat ∧ t.out = s.out ++ bytesOfWord v ∧
      t.ctx = (s.engine.nthDraw s.cfg k).engine.toCtx ∧ t.pc = s.pc + 5 ∧ s.KeepsAround t ∧ t.LatchesClear)

/-- R153: the value `UNIF` emits is in `[0, upper)` for `upper >= 1`, and 0 for `upper = 0`. -/
def Obligations.UnifResultIsBelowTheBound : Prop :=
  ∀ (upper : Word) (s t : State), s.err = 0 → s.live = true → s.seq = .idle →
    exec (.unif upper) s = .next t → t.seq = .idle →
    ∃ v : Word, t.out = s.out ++ bytesOfWord v ∧ (upper ≠ 0 → v < upper) ∧ (upper = 0 → v = 0)

/-- R153, R154: the rejection bound: `min = 2^32 mod upper`, so that `[min, 2^32)` holds a multiple of `upper`
values; fewer than half of the draws are rejected, none when `upper` divides `2^32`. -/
def Obligations.UnifBoundLeavesAMultiple : Prop :=
  ∀ upper : Word, 2 ≤ upper.toNat →
    unifMin upper = 2 ^ 32 % upper.toNat ∧ unifMin upper < upper.toNat ∧
    upper.toNat ∣ 2 ^ 32 - unifMin upper ∧ unifMin upper ≤ 2 ^ 31 - 1 ∧
    (2 ^ 31 < upper.toNat → unifMin upper = 2 ^ 32 - upper.toNat) ∧
    (upper.toNat ∣ 2 ^ 32 → unifMin upper = 0)

/-- R249, R60: while a `UNIF` draws, a step takes no byte and executes nothing else; it either stays unfinished,
having emitted nothing, or emits the first accepted draw modulo `upper` and is done, with the context after that
draw (R153). That a step makes at most `drawsPerStep` draws is the model's choice (log entry 6), and so is that
`pc` stays until the command is done (log entry 7). -/
def Obligations.UnfinishedUnifOnlyDraws : Prop :=
  ∀ (s : State) (upper : Word), s.rst = .low → s.seq = .drawing upper →
    ∃ t, step s = .next t ∧ s.KeepsPorts t ∧ t.live = s.live ∧ t.c = s.c ∧
      ((t.seq = .drawing upper ∧ t.out = s.out ∧ t.pc = s.pc ∧
          t.ctx = (s.engine.afterDraws s.cfg Config.drawsPerStep).toCtx ∧
          ∀ n < Config.drawsPerStep, (s.engine.nthDraw s.cfg n).word.toNat < unifMin upper) ∨
        (t.seq = .idle ∧ t.pc = s.pc + 5 ∧ ∃ (k : Nat) (v : Word), k < Config.drawsPerStep ∧
          (∀ n < k, (s.engine.nthDraw s.cfg n).word.toNat < unifMin upper) ∧
          unifMin upper ≤ (s.engine.nthDraw s.cfg k).word.toNat ∧
          v.toNat = (s.engine.nthDraw s.cfg k).word.toNat % upper.toNat ∧ t.out = s.out ++ bytesOfWord v ∧
          t.ctx = (s.engine.nthDraw s.cfg k).engine.toCtx))

/-- R153, R154: a `UNIF` of bound at least 2 completes as soon as a draw is accepted, however many are rejected
before it, and leaves what the loop of R153 leaves; the number of steps is the model's (log entry 6). -/
def Obligations.UnifCompletesWhenADrawIsAccepted : Prop :=
  ∀ (upper : Word) (s : State) (rest : List Byte) (k : Nat), s.rst = .low → s.seq = .idle → s.err = 0 →
    s.live = true → decode (s.asm ++ s.cmd) = .ok (.unif upper) rest → 2 ≤ upper.toNat →
    (∀ n < k, (s.engine.nthDraw s.cfg n).word.toNat < unifMin upper) →
    unifMin upper ≤ (s.engine.nthDraw s.cfg k).word.toNat →
    ∃ (t : State) (v : Word), Host.Core.run core (k / Config.drawsPerStep + 1) s = .next t ∧
      v.toNat = (s.engine.nthDraw s.cfg k).word.toNat % upper.toNat ∧ t.out = s.out ++ bytesOfWord v ∧
      t.ctx = (s.engine.nthDraw s.cfg k).engine.toCtx ∧ t.seq = .idle ∧ t.live = true ∧ t.err = 0 ∧
      t.pc = s.pc + 5 ∧ t.asm = [] ∧ t.cmd = rest

/-- R155: `XORB b`, opcode 0x41, emits `b` xor one keystream byte; the context goes on as for `DRIP`. On a dead
context it faults. -/
def Obligations.XorbEmitsTheXor : Prop :=
  ∀ b : Byte, encode (.xorb b) = [0x41#8, b] ∧
  (∀ s : State, s.err = 0 → s.live = false → exec (.xorb b) s = .next (s.notLive 2)) ∧
  ∀ s : State, s.err = 0 → s.live = true →
    let d := s.engine.drip s.cfg
    ∃ t u, exec (.xorb b) s = .next t ∧ t.ctx = d.engine.toCtx ∧ t.out = s.out ++ [b ^^^ d.byte] ∧
      t.pc = s.pc + 2 ∧ s.KeepsAround t ∧ t.LatchesClear ∧ exec .drip s = .next u ∧ t.ctx = u.ctx

/-- R156: from the same context, `XORB` of a message and then, in another run, of the first run's output gives the
message back and the same context, whatever the two configurations. -/
def Obligations.XorbIsAnInvolution : Prop :=
  ∀ (message : List Byte) (s s' : State), s.err = 0 → s.live = true →
    s'.err = 0 → s'.live = true → s'.ctx = s.ctx →
    ∃ (cipher : List Byte) (t t' : State), execAll (message.map .xorb) s = .next t ∧ t.out = s.out ++ cipher ∧
      execAll (cipher.map .xorb) s' = .next t' ∧ t'.out = s'.out ++ message ∧ t'.ctx = t.ctx

/-! ### Hash/MAC sequencer (43_hash_mac.md) -/

/-- R170: `FINAL n`, opcode 0x43: `absorb_stop`, `absorb_byte(n)`, `n` drips emitted, then the wipe exactly under
`WIPE_AFTER_USAGE`. On a dead
context it faults. -/
def Obligations.FinalEmitsTheDigest : Prop :=
  ∀ n : Byte, encode (.final n) = [0x43#8, n] ∧
  Source.expand (.hfinal n.toNat) = [.final n] ∧ Source.expand (.mfinal n.toNat) = [.final n] ∧
  (∀ s : State, s.err = 0 → s.live = false → exec (.final n) s = .next (s.notLive 2)) ∧
  ∀ s : State, s.err = 0 → s.live = true →
    let q := ((s.engine.absorbStop s.cfg).absorbByte s.cfg n).squeeze s.cfg n.toNat
    ∃ t, exec (.final n) s = .next t ∧ t.out = s.out ++ q.bytes ∧ q.bytes.length = n.toNat ∧
      (s.cfg.wipeAfterUsage = true → t.ctx = Ctx.zero ∧ t.live = false ∧ t.t0 = 0 ∧ t.t1 = 0) ∧
      (s.cfg.wipeAfterUsage = false → t.ctx = q.engine.toCtx ∧ t.live = true) ∧
      t.pc = s.pc + 2 ∧ t.c = s.c ∧ t.seq = s.seq ∧ s.KeepsPorts t ∧ t.LatchesClear

/-! ### Timing-safe utilities (44_timing_safe_utilities.md) -/

/-- R191: `CMPCLR`, opcode 0x06: `c <- 0` and nothing else, on a live and on a dead context. That the latches stay
without PARANOID is the model's choice (log entry 5). -/
def Obligations.CmpclrClearsTheAccumulator : Prop :=
  encode .cmpclr = [0x06#8] ∧
  ∀ s : State, s.err = 0 → s.LatchesClear → exec .cmpclr s = .next { s with c := 0, pc := s.pc + 1 }

/-- R192: `CMPB x, y`, opcode 0x80: `c <- c | (x ^ y)` and nothing else; a set bit of `c` stays set. That the latches
stay without PARANOID is the model's choice (log entry 5). -/
def Obligations.CmpbAccumulatesDifferences : Prop :=
  ∀ x y : Byte, encode (.cmpb x y) = [0x80#8, x, y] ∧
  ∀ s : State, s.err = 0 → s.LatchesClear →
    exec (.cmpb x y) s = .next { s with c := s.c ||| (x ^^^ y), pc := s.pc + 3 } ∧
    ∀ n, s.c.getLsbD n = true → (s.c ||| (x ^^^ y)).getLsbD n = true

/-- R193: `CMPRD`, opcode 0x07: emits `c` and leaves it. That the latches stay without PARANOID is the model's
choice (log entry 5). -/
def Obligations.CmprdEmitsTheAccumulator : Prop :=
  encode .cmprd = [0x07#8] ∧
  ∀ s : State, s.err = 0 → s.LatchesClear →
    exec .cmprd s = .next { s with out := s.out ++ [s.c], pc := s.pc + 1 }

/-- R194, R116: `WIPE`, opcode 0x05: the context and the latches all zero, `live` cleared, `c` and `err` kept, on a
live and on a dead context; after it only `INIT`, `WIPE`, `NOP` and the comparator's commands do not fault. -/
def Obligations.WipeZeroesTheContext : Prop :=
  encode .wipe = [0x05#8] ∧ Source.expand .ctxzero = [.wipe] ∧
  ∀ s : State, s.err = 0 → ∃ t, exec .wipe s = .next t ∧
    (∀ x : Byte, Memory.read t.ctx.s x.toNat = 0) ∧ t.ctx.i = 0 ∧ t.ctx.j = 0 ∧ t.ctx.k = 0 ∧ t.ctx.z = 0 ∧
    t.ctx.a = 0 ∧ t.ctx.w = 0 ∧ t.t0 = 0 ∧ t.t1 = 0 ∧ t.live = false ∧ t.c = s.c ∧ t.out = s.out ∧
    t.pc = s.pc + 1 ∧ t.seq = s.seq ∧ s.KeepsPorts t ∧
    ∀ (i : Instr) (u : State), exec i t = .next u → (u.err = 0 ↔ i = .init ∨ i = .wipe ∨ i = .nop ∨ i = .cmpclr ∨
      i = .cmprd ∨ ∃ x y, i = .cmpb x y)

/-- R195, which the spec infers from R191 to R193: the `compare` service over two buffers of one length emits one byte, the OR of the XORs of the pairs,
which is 0 exactly when the buffers are equal. -/
def Obligations.CompareIsZeroExactlyOnEqualBuffers : Prop :=
  ∀ (bufa bufb : List Byte) (s : State), bufa.length = bufb.length → s.err = 0 →
    ∃ (t : State) (r : Byte), execAll (Source.expand (.compare bufa bufb)) s = .next t ∧ t.out = s.out ++ [r] ∧
      r = (List.zipWith (· ^^^ ·) bufa bufb).foldl (· ||| ·) 0 ∧ (r = 0 ↔ bufa = bufb) ∧
      t.ctx = s.ctx ∧ t.live = s.live

/-! ### Frames and whole-machine rules -/

/-- R40: which commands that do not fault leave which state alone: the context (every byte of the S-box and every
register), `live`, `c` and the response stream; and none writes `err`, the assembler, the configuration or the
host's side of the ports. -/
def Obligations.CommandsKeepWhatTheyDoNotWrite : Prop :=
  ∀ (i : Instr) (s t : State), s.err = 0 → (i.needsLive = true → s.live = true) → exec i s = .next t →
    s.KeepsPorts t ∧
    (match i with
      | .nop | .cmpclr | .cmpb _ _ | .cmprd => t.ctx = s.ctx
      | .init | .stop | .drip | .u32 | .wipe | .absb _ | .xorb _ | .sqz _ | .final _ | .unif _ => True) ∧
    (match i with
      | .init | .wipe | .final _ => True
      | .nop | .stop | .drip | .u32 | .cmpclr | .cmprd | .absb _ | .xorb _ | .sqz _ | .cmpb _ _ | .unif _ =>
        t.live = s.live) ∧
    (match i with
      | .cmpclr | .cmpb _ _ => True
      | .nop | .init | .stop | .drip | .u32 | .wipe | .cmprd | .absb _ | .xorb _ | .sqz _ | .final _ | .unif _ =>
        t.c = s.c) ∧
    (match i with
      | .nop | .init | .stop | .wipe | .cmpclr | .absb _ | .cmpb _ _ => t.out = s.out
      | .drip | .u32 | .cmprd | .xorb _ | .sqz _ | .final _ | .unif _ => True) ∧
    (match i with
      | .unif _ => True
      | .nop | .init | .stop | .drip | .u32 | .wipe | .cmpclr | .cmprd | .absb _ | .xorb _ | .sqz _ | .final _
      | .cmpb _ _ => t.seq = s.seq)

/-- R36: STATUS, bit by bit, in every state. -/
def Obligations.StatusShowsLiveFaultAndConfiguration : Prop :=
  ∀ s : State,
    s.status.getLsbD 0 = s.live ∧ s.status.getLsbD 1 = (s.err != 0) ∧
    s.status.getLsbD 2 = s.err.getLsbD 0 ∧ s.status.getLsbD 3 = s.err.getLsbD 1 ∧
    s.status.getLsbD 4 = s.cfg.safeTimingCrush ∧ s.status.getLsbD 5 = s.cfg.wipeAfterUsage ∧
    s.status.getLsbD 6 = s.cfg.wipeAfterUsageParanoid ∧ s.status.getLsbD 7 = false

/-- R8, R33: two machines that differ only in the latches and in toggles other than `WIPE_AFTER_USAGE` go on
differing only there, step by step; and no toggle changes a response byte or a fault of a command (R196). -/
def Obligations.OnlyWipeAfterUsageChangesValues : Prop :=
  (∀ s t : State, s.SameToTheHost t → s.cfg.wipeAfterUsage = t.cfg.wipeAfterUsage →
    ∃ s' t', step s = .next s' ∧ step t = .next t' ∧ s'.SameToTheHost t' ∧
      s'.cfg.wipeAfterUsage = t'.cfg.wipeAfterUsage) ∧
  ∀ (i : Instr) (s t : State), s.SameToTheHost t →
    ∃ s' t', exec i s = .next s' ∧ exec i t = .next t' ∧ t'.out = s'.out ∧ t'.err = s'.err

/-! ### The assembler (30_encoding.md R80 to R92) -/

/-- R85, R246: with the `STOP` between key and nonce different splits of the same bytes are different command
streams; without it they are the same. -/
def Obligations.SetupIvSeparatesKeyFromNonce : Prop :=
  ∀ key nonce key' nonce' : List Byte,
    (Source.expand (.setupiv key nonce) = Source.expand (.setupiv key' nonce') ↔ key = key' ∧ nonce = nonce') ∧
    (Source.expand (.setup key) ++ Source.expand (.absorb nonce) =
      Source.expand (.setup key') ++ Source.expand (.absorb nonce') ↔ key ++ nonce = key' ++ nonce')
end

