-- ==== Sys2Proof/Laws/Memory.lean ====
section
/-! SUPPORT. The laws of the S-box's memory: what a load after a store gives, that every memory an image
leaves is canonical, and that image and canonical memory are the same data. -/

namespace Sys2Proof.Machine

open Sys2Proof

/-! ### Images -/

theorem Image.getLsbD_load (m : Image) (x : Byte) (n : Nat) (h : n < 8) :
    (Image.load m x).getLsbD n = m.getLsbD (8 * x.toNat + n) := by
  simp [Image.load, h]

theorem Image.ext_load (m m' : Image) (h : ∀ x, Image.load m x = Image.load m' x) : m = m' := by
  apply BitVec.eq_of_getLsbD_eq
  intro n hn
  have hx : n / 8 < 256 := by omega
  have key := congrArg (fun b => b.getLsbD (n % 8)) (h (BitVec.ofNat 8 (n / 8)))
  simp only [Image.getLsbD_load _ _ _ (Nat.mod_lt n (by decide : 0 < 8)), BitVec.toNat_ofNat,
    Nat.mod_eq_of_lt hx] at key
  rwa [show 8 * (n / 8) + n % 8 = n by omega] at key

/-- A store changes the entry it names and no other. -/
theorem Image.load_store (m : Image) (x v y : Byte) :
    Image.load (Image.store m x v) y = if y = x then v else Image.load m y := by
  apply BitVec.eq_of_getLsbD_eq
  intro n hn
  have hx := x.isLt
  have hy := y.isLt
  rw [Image.getLsbD_load _ _ _ hn]
  have hin : 8 * y.toNat + n < 2048 := by omega
  simp only [Image.store, BitVec.getLsbD_xor, BitVec.getLsbD_shiftLeft, BitVec.getLsbD_setWidth,
    hin, decide_true, Bool.true_and]
  by_cases hxy : y = x
  · subst hxy
    rw [if_pos rfl]
    have h1 : 8 * y.toNat + n - 8 * y.toNat = n := by omega
    have h2 : n < 2048 := by omega
    have h3 : ¬ 8 * y.toNat + n < 8 * y.toNat := by omega
    simp only [h1, h2, h3, decide_true, decide_false, Bool.not_false, Bool.true_and]
    rw [Image.getLsbD_load _ _ _ hn]
    cases m.getLsbD (8 * y.toNat + n) <;> cases v.getLsbD n <;> rfl
  · rw [if_neg hxy, Image.getLsbD_load _ _ _ hn]
    have hne : y.toNat ≠ x.toNat := fun h => hxy (BitVec.eq_of_toNat_eq h)
    by_cases hlt : 8 * y.toNat + n < 8 * x.toNat
    · simp [hlt]
    · have h8 : ¬ 8 * y.toNat + n - 8 * x.toNat < 8 := by omega
      have : (Image.load m x ^^^ v).getLsbD (8 * y.toNat + n - 8 * x.toNat) = false :=
        BitVec.getLsbD_of_ge _ _ (by omega)
      simp only [BitVec.getLsbD_xor] at this
      simp [hlt, this]

@[simp] theorem Image.load_store_self (m : Image) (x v : Byte) :
    Image.load (Image.store m x v) x = v := by
  rw [Image.load_store, if_pos rfl]

theorem Image.load_store_other (m : Image) (x v y : Byte) (h : y ≠ x) :
    Image.load (Image.store m x v) y = Image.load m y := by
  rw [Image.load_store, if_neg h]

@[simp] theorem Image.load_zero (x : Byte) : Image.load 0 x = 0 := by
  simp [Image.load]

/-! ### Canonical memories -/

theorem Memory.read_below (m : List Host.Cell) (lo x : Nat) (h : Memory.wfFrom lo m = true) (hx : x < lo) :
    Memory.read m x = 0 := by
  induction m generalizing lo with
  | nil => rfl
  | cons cell m ih =>
    obtain ⟨b, v⟩ := cell
    simp only [Memory.wfFrom, Bool.and_eq_true, decide_eq_true_eq] at h
    have hne : b ≠ x := by omega
    rw [Memory.read, if_neg hne]
    exact ih (b + 1) h.2 (by omega)

/-- Canonical memories with the same contents are equal. -/
theorem Memory.ext_from (m m' : List Host.Cell) (lo : Nat) (h : Memory.wfFrom lo m = true)
    (h' : Memory.wfFrom lo m' = true) (hread : ∀ x < 256, Memory.read m x = Memory.read m' x) : m = m' := by
  induction m generalizing m' lo with
  | nil =>
    cases m' with
    | nil => rfl
    | cons cell m' =>
      obtain ⟨b, v⟩ := cell
      simp only [Memory.wfFrom, Bool.and_eq_true, decide_eq_true_eq] at h'
      have := hread b h'.1.1.2
      simp only [Memory.read, if_true] at this
      exact absurd this.symm h'.1.2
  | cons cell m ih =>
    obtain ⟨b, v⟩ := cell
    cases m' with
    | nil =>
      simp only [Memory.wfFrom, Bool.and_eq_true, decide_eq_true_eq] at h
      have := hread b h.1.1.2
      simp only [Memory.read, if_true] at this
      exact absurd this h.1.2
    | cons cell' m' =>
      obtain ⟨b', v'⟩ := cell'
      simp only [Memory.wfFrom, Bool.and_eq_true, decide_eq_true_eq] at h h'
      have hb : b = b' := by
        rcases Nat.lt_trichotomy b b' with hlt | heq | hgt
        · have h1 := hread b h.1.1.2
          rw [Memory.read, if_pos rfl, Memory.read, if_neg (by omega : b' ≠ b),
            Memory.read_below m' (b' + 1) b h'.2 (by omega)] at h1
          exact absurd h1 h.1.2
        · exact heq
        · have h1 := hread b' h'.1.1.2
          rw [Memory.read, if_neg (by omega : b ≠ b'), Memory.read_below m (b + 1) b' h.2 (by omega),
            Memory.read, if_pos rfl] at h1
          exact absurd h1.symm h'.1.2
      subst hb
      have hv : v = v' := by
        have := hread b h.1.1.2
        simpa [Memory.read] using this
      subst hv
      have : m = m' := by
        refine ih m' (b + 1) h.2 h'.2 fun x hx => ?_
        by_cases hbx : b = x
        · subst hbx
          rw [Memory.read_below m (b + 1) b h.2 (by omega), Memory.read_below m' (b + 1) b h'.2 (by omega)]
        · have := hread x hx
          simpa [Memory.read, hbx] using this
      rw [this]

theorem Memory.ext (m m' : List Host.Cell) (h : Memory.wf m = true) (h' : Memory.wf m' = true)
    (hread : ∀ x : Byte, Memory.read m x.toNat = Memory.read m' x.toNat) : m = m' :=
  Memory.ext_from m m' 0 h h' fun x hx => by
    have := hread (BitVec.ofNat 8 x)
    rwa [BitVec.toNat_ofNat, Nat.mod_eq_of_lt hx] at this

/-! ### Image and memory -/

theorem Image.listed_wf (m : Image) (n lo : Nat) (h : lo + n ≤ 256) :
    Memory.wfFrom lo (((List.range' lo n).map fun x => (x, Image.load m (BitVec.ofNat 8 x))).filter
      fun cell => cell.2 != 0) = true := by
  induction n generalizing lo with
  | zero => rfl
  | succ n ih =>
    have rest := ih (lo + 1) (by omega)
    have weaken : ∀ (c : List Host.Cell), Memory.wfFrom (lo + 1) c = true → Memory.wfFrom lo c = true := by
      intro c hc
      cases c with
      | nil => rfl
      | cons cell c =>
        simp only [Memory.wfFrom, Bool.and_eq_true, decide_eq_true_eq] at hc ⊢
        exact ⟨⟨⟨by omega, hc.1.1.2⟩, hc.1.2⟩, hc.2⟩
    rw [List.range'_succ, List.map_cons, List.filter_cons]
    split
    · rename_i hne
      simp only [Memory.wfFrom, Bool.and_eq_true, decide_eq_true_eq]
      exact ⟨⟨⟨le_refl _, by omega⟩, by simpa using hne⟩, rest⟩
    · exact weaken _ rest

/-- Every memory an image leaves is in canonical form. -/
theorem Image.cells_wf (m : Image) : Memory.wf (Image.cells m) = true := by
  have := Image.listed_wf m 256 0 (by omega)
  rwa [← List.range_eq_range'] at this

theorem Image.listed_read (m : Image) (n lo x : Nat) (hlo : lo ≤ x) (hx : x < lo + n) :
    Memory.read (((List.range' lo n).map fun x => (x, Image.load m (BitVec.ofNat 8 x))).filter
      fun cell => cell.2 != 0) x = Image.load m (BitVec.ofNat 8 x) := by
  induction n generalizing lo with
  | zero => omega
  | succ n ih =>
    have past : ∀ (k a : Nat), x < a →
        Memory.read (((List.range' a k).map fun x => (x, Image.load m (BitVec.ofNat 8 x))).filter
          fun cell => cell.2 != 0) x = 0 := by
      intro k
      induction k with
      | zero => intros; rfl
      | succ k ihk =>
        intro a ha
        rw [List.range'_succ, List.map_cons, List.filter_cons]
        split
        · rw [Memory.read, if_neg (by omega : a ≠ x)]
          exact ihk (a + 1) (by omega)
        · exact ihk (a + 1) (by omega)
    rw [List.range'_succ, List.map_cons, List.filter_cons]
    by_cases heq : lo = x
    · subst heq
      split
      · rw [Memory.read, if_pos rfl]
      · rename_i hz
        rw [past n (lo + 1) (by omega)]
        simpa using Eq.symm (by simpa using hz : Image.load m (BitVec.ofNat 8 lo) = 0)
    · split
      · rw [Memory.read, if_neg heq]
        exact ih (lo + 1) (by omega) (by omega)
      · exact ih (lo + 1) (by omega) (by omega)

/-- Reading the memory an image leaves reads the image. -/
@[simp] theorem Image.read_cells (m : Image) (x : Byte) :
    Memory.read (Image.cells m) x.toNat = Image.load m x := by
  have := Image.listed_read m 256 0 x.toNat (by omega) (by have := x.isLt; omega)
  rw [← List.range_eq_range', BitVec.ofNat_toNat, BitVec.setWidth_eq] at this
  exact this

theorem Image.load_ofCells_from (m : List Host.Cell) (lo : Nat) (h : Memory.wfFrom lo m = true) (x : Byte) :
    Image.load (Image.ofCells m) x = Memory.read m x.toNat := by
  induction m generalizing lo with
  | nil => exact Image.load_zero x
  | cons cell m ih =>
    obtain ⟨b, v⟩ := cell
    simp only [Memory.wfFrom, Bool.and_eq_true, decide_eq_true_eq] at h
    have rest := ih (b + 1) h.2
    simp only [Image.ofCells, List.foldr_cons] at rest ⊢
    rw [Image.load_store, Memory.read]
    by_cases hbx : b = x.toNat
    · rw [if_pos (by rw [hbx]; simp), if_pos hbx]
    · rw [if_neg hbx, if_neg, rest]
      intro hx
      apply hbx
      have := h.1.1.2
      rw [hx, BitVec.toNat_ofNat]
      omega

/-- The image of a canonical memory holds its contents. -/
theorem Image.load_ofCells (m : List Host.Cell) (h : Memory.wf m = true) (x : Byte) :
    Image.load (Image.ofCells m) x = Memory.read m x.toNat :=
  Image.load_ofCells_from m 0 h x

@[simp] theorem Image.ofCells_cells (m : Image) : Image.ofCells (Image.cells m) = m :=
  Image.ext_load _ _ fun x => by rw [Image.load_ofCells _ (Image.cells_wf m), Image.read_cells]

theorem Image.cells_ofCells (m : List Host.Cell) (h : Memory.wf m = true) :
    Image.cells (Image.ofCells m) = m :=
  Memory.ext _ _ (Image.cells_wf _) h fun x => by rw [Image.read_cells, Image.load_ofCells m h]

/-! ### Contexts -/

@[simp] theorem Engine.toCtx_i (e : Engine) : e.toCtx.i = e.i := rfl
@[simp] theorem Engine.toCtx_j (e : Engine) : e.toCtx.j = e.j := rfl
@[simp] theorem Engine.toCtx_k (e : Engine) : e.toCtx.k = e.k := rfl
@[simp] theorem Engine.toCtx_z (e : Engine) : e.toCtx.z = e.z := rfl
@[simp] theorem Engine.toCtx_a (e : Engine) : e.toCtx.a = e.a := rfl
@[simp] theorem Engine.toCtx_w (e : Engine) : e.toCtx.w = e.w := rfl
@[simp] theorem Ctx.toEngine_i (c : Ctx) : c.toEngine.i = c.i := rfl
@[simp] theorem Ctx.toEngine_j (c : Ctx) : c.toEngine.j = c.j := rfl
@[simp] theorem Ctx.toEngine_k (c : Ctx) : c.toEngine.k = c.k := rfl
@[simp] theorem Ctx.toEngine_z (c : Ctx) : c.toEngine.z = c.z := rfl
@[simp] theorem Ctx.toEngine_a (c : Ctx) : c.toEngine.a = c.a := rfl
@[simp] theorem Ctx.toEngine_w (c : Ctx) : c.toEngine.w = c.w := rfl

@[simp] theorem Engine.toEngine_toCtx (e : Engine) : e.toCtx.toEngine = e := by
  simp [Engine.toCtx, Ctx.toEngine]

theorem Ctx.toCtx_toEngine (c : Ctx) (h : Memory.wf c.s = true) : c.toEngine.toCtx = c := by
  simp [Engine.toCtx, Ctx.toEngine, Image.cells_ofCells c.s h]

/-- Every context an engine leaves has its memory in canonical form. -/
@[simp] theorem Engine.toCtx_wf (e : Engine) : Memory.wf e.toCtx.s = true := Image.cells_wf e.s

@[simp] theorem Engine.read_toCtx (e : Engine) (x : Byte) :
    Memory.read e.toCtx.s x.toNat = e.load x := Image.read_cells e.s x

theorem Ctx.load_toEngine (c : Ctx) (h : Memory.wf c.s = true) (x : Byte) :
    c.toEngine.load x = Memory.read c.s x.toNat := Image.load_ofCells c.s h x

theorem Ctx.zero_wf : Memory.wf Ctx.zero.s = true := rfl

/-! ### Loads and stores of an engine -/

theorem Engine.load_store (e : Engine) (x v y : Byte) :
    (e.store x v).load y = if y = x then v else e.load y := Image.load_store e.s x v y

/-- Two engines with the same entries and the same registers are equal. -/
theorem Engine.ext_load (e e' : Engine) (hload : ∀ x, e.load x = e'.load x) (hi : e.i = e'.i) (hj : e.j = e'.j)
    (hk : e.k = e'.k) (hz : e.z = e'.z) (ha : e.a = e'.a) (hw : e.w = e'.w) : e = e' := by
  cases e
  cases e'
  simp only [Engine.mk.injEq] at *
  exact ⟨Image.ext_load _ _ hload, hi, hj, hk, hz, ha, hw⟩

end Sys2Proof.Machine
end

