-- ==== Sys2Proof/Laws/Micro.lean ====
section
/-! SUPPORT. The laws of the micro-operations: what each does to the registers, that each only rearranges the
S-box, and how the loops are taken apart. -/

namespace Sys2Proof.Machine

open Sys2Proof

/-! ### Loops -/

@[simp] theorem forUpTo_zero {α : Type} (body : Nat → α → α) (x : α) : forUpTo 0 body x = x := rfl

theorem forUpTo_succ {α : Type} (n : Nat) (body : Nat → α → α) (x : α) :
    forUpTo (n + 1) body x = body n (forUpTo n body x) := rfl

/-- What every round keeps, the loop keeps. -/
theorem forUpTo_keeps {α : Type} (P : α → Prop) (n : Nat) (body : Nat → α → α) (x : α) (h : P x)
    (round : ∀ v < n, ∀ y, P y → P (body v y)) : P (forUpTo n body x) := by
  induction n with
  | zero => exact h
  | succ n ih => exact round n (by omega) _ (ih fun v hv => round v (by omega))

/-- Rounds that do the same make loops that do the same. -/
theorem forUpTo_congr {α : Type} (n : Nat) (f g : Nat → α → α) (x : α) (h : ∀ v < n, ∀ y, f v y = g v y) :
    forUpTo n f x = forUpTo n g x := by
  induction n with
  | zero => rfl
  | succ n ih => rw [forUpTo_succ, forUpTo_succ, ih fun v hv => h v (by omega), h n (by omega)]

/-- A loop whose rounds ignore their number is an iteration. -/
theorem forUpTo_iterate {α : Type} (n : Nat) (f : α → α) (x : α) : forUpTo n (fun _ => f) x = f^[n] x := by
  induction n with
  | zero => rfl
  | succ n ih => rw [forUpTo_succ, ih, Function.iterate_succ_apply']

/-! ### Rearrangement of the S-box -/

/-- The S-box of `e'` is that of `e` with its entries exchanged among themselves (40_primitives.md R117). -/
def Engine.Rearranges (e e' : Engine) : Prop := ∃ σ : Equiv.Perm Byte, ∀ v, e'.load v = e.load (σ v)

theorem Engine.Rearranges.refl (e : Engine) : e.Rearranges e := ⟨Equiv.refl _, fun _ => rfl⟩

theorem Engine.Rearranges.trans {e e' e'' : Engine} (h : e.Rearranges e') (h' : e'.Rearranges e'') :
    e.Rearranges e'' := by
  obtain ⟨σ, hσ⟩ := h
  obtain ⟨τ, hτ⟩ := h'
  exact ⟨τ.trans σ, fun v => by rw [hτ, hσ]; rfl⟩

/-- Rearranging depends on the entries alone. -/
theorem Engine.Rearranges.of_s {e e' e'' : Engine} (h : e.Rearranges e') (hs : e''.s = e'.s) : e.Rearranges e'' := by
  obtain ⟨σ, hσ⟩ := h
  exact ⟨σ, fun v => by rw [← hσ v, Engine.load, Engine.load, hs]⟩

/-! ### `swap` -/

@[simp] theorem Engine.swap_i (e : Engine) (x y : Byte) : (e.swap x y).i = e.i := rfl
@[simp] theorem Engine.swap_j (e : Engine) (x y : Byte) : (e.swap x y).j = e.j := rfl
@[simp] theorem Engine.swap_k (e : Engine) (x y : Byte) : (e.swap x y).k = e.k := rfl
@[simp] theorem Engine.swap_z (e : Engine) (x y : Byte) : (e.swap x y).z = e.z := rfl
@[simp] theorem Engine.swap_a (e : Engine) (x y : Byte) : (e.swap x y).a = e.a := rfl
@[simp] theorem Engine.swap_w (e : Engine) (x y : Byte) : (e.swap x y).w = e.w := rfl

/-- `swap` exchanges two entries (R101). -/
theorem Engine.load_swap (e : Engine) (x y v : Byte) : (e.swap x y).load v = e.load (Equiv.swap x y v) := by
  simp only [Engine.swap, Engine.load_store, Equiv.swap_apply_def]
  by_cases hx : v = x <;> by_cases hy : v = y <;> simp_all

theorem Engine.swap_rearranges (e : Engine) (x y : Byte) : e.Rearranges (e.swap x y) :=
  ⟨Equiv.swap x y, e.load_swap x y⟩

/-! ### `update` -/

@[simp] theorem Engine.update_i (e : Engine) : e.update.i = e.i + e.w := rfl
@[simp] theorem Engine.update_j (e : Engine) : e.update.j = e.k + e.load (e.j + e.load (e.i + e.w)) := rfl
@[simp] theorem Engine.update_k (e : Engine) : e.update.k = e.i + e.w + e.k + e.load e.update.j := rfl
@[simp] theorem Engine.update_z (e : Engine) : e.update.z = e.z := rfl
@[simp] theorem Engine.update_a (e : Engine) : e.update.a = e.a := rfl
@[simp] theorem Engine.update_w (e : Engine) : e.update.w = e.w := rfl

/-- `update` ends by exchanging the entries at the new `i` and `j` (R102). -/
theorem Engine.load_update (e : Engine) (v : Byte) :
    e.update.load v = e.load (Equiv.swap e.update.i e.update.j v) :=
  Engine.load_swap { e with i := e.update.i, j := e.update.j, k := e.update.k } e.update.i e.update.j v

theorem Engine.update_rearranges (e : Engine) : e.Rearranges e.update :=
  ⟨Equiv.swap e.update.i e.update.j, e.load_update⟩

/-! ### `whip` -/

theorem Engine.whip_def (e : Engine) (r : Nat) :
    e.whip r = { (Engine.update^[r] e) with w := (Engine.update^[r] e).w + 2 } := by
  simp only [Engine.whip, forUpTo_iterate]

theorem Engine.updates_regs (e : Engine) (r : Nat) :
    (Engine.update^[r] e).i = e.i + BitVec.ofNat 8 r * e.w ∧ (Engine.update^[r] e).z = e.z ∧
      (Engine.update^[r] e).a = e.a ∧ (Engine.update^[r] e).w = e.w := by
  induction r with
  | zero => simp
  | succ r ih =>
    obtain ⟨hi, hz, ha, hw⟩ := ih
    rw [Function.iterate_succ_apply']
    refine ⟨?_, by simpa using hz, by simpa using ha, by simpa using hw⟩
    rw [Engine.update_i, hi, hw, BitVec.ofNat_add, BitVec.add_mul]
    simp [BitVec.add_assoc]

theorem Engine.updates_rearrange (e : Engine) (r : Nat) : e.Rearranges (Engine.update^[r] e) := by
  induction r with
  | zero => exact .refl e
  | succ r ih =>
    rw [Function.iterate_succ_apply']
    exact ih.trans (Engine.update_rearranges _)

@[simp] theorem Engine.whip_i (e : Engine) (r : Nat) : (e.whip r).i = e.i + BitVec.ofNat 8 r * e.w := by
  simp [Engine.whip_def, (e.updates_regs r).1]

@[simp] theorem Engine.whip_z (e : Engine) (r : Nat) : (e.whip r).z = e.z := by
  simp [Engine.whip_def, (e.updates_regs r).2.1]

@[simp] theorem Engine.whip_a (e : Engine) (r : Nat) : (e.whip r).a = e.a := by
  simp [Engine.whip_def, (e.updates_regs r).2.2.1]

@[simp] theorem Engine.whip_w (e : Engine) (r : Nat) : (e.whip r).w = e.w + 2 := by
  simp [Engine.whip_def, (e.updates_regs r).2.2.2]

theorem Engine.whip_rearranges (e : Engine) (r : Nat) : e.Rearranges (e.whip r) := by
  rw [Engine.whip_def]
  exact (e.updates_rearrange r).of_s rfl

/-! ### `crush` -/

/-- The mask is the comparison (R106). -/
theorem crushMask_def (t0 t1 : Byte) : crushMask t0 t1 = if t0 > t1 then 0xFF#8 else 0x00#8 := by
  have h0 := t0.isLt
  have h1 := t1.isLt
  have key : (t1.setWidth 16 - t0.setWidth 16).getLsbD 15 = decide (t0 > t1) := by
    rw [BitVec.getLsbD, BitVec.toNat_sub, BitVec.toNat_setWidth, BitVec.toNat_setWidth,
      Nat.testBit_eq_decide_div_mod_eq]
    congr 1
    rw [gt_iff_lt, BitVec.lt_def, eq_iff_iff]
    omega
  rw [crushMask, key]
  simp

/-- The stores of the masked pair step (R106). -/
theorem maskSelect_def (t0 t1 t u : Byte) :
    maskSelect (crushMask t0 t1) t u = if t0 > t1 then u else t := by
  rw [crushMask_def]
  have all : ∀ b : Byte, b &&& 255#8 = b := fun b => BitVec.and_allOnes
  split <;> simp [maskSelect, all]

/-- Both forms of the pair step put the smaller value first (R105, R106). -/
theorem Engine.load_crushPairPlain (e : Engine) (p q v : Byte) :
    (e.crushPairPlain p q).load v =
      if e.load p > e.load q then e.load (Equiv.swap p q v) else e.load v := by
  rw [Engine.crushPairPlain]
  split
  · exact e.load_swap p q v
  · rfl

/-- The masked pair step leaves what the plain one leaves (R106). -/
theorem Engine.crushPairMasked_eq (e : Engine) (p q : Byte) : e.crushPairMasked p q = e.crushPairPlain p q := by
  refine Engine.ext_load _ _ (fun v => ?_) ?_ ?_ ?_ ?_ ?_ ?_
  · rw [Engine.load_crushPairPlain]
    simp only [Engine.crushPairMasked, Engine.load_store, maskSelect_def]
    by_cases hgt : e.load p > e.load q
    · simp only [if_pos hgt, Equiv.swap_apply_def]
      by_cases hp : v = p <;> by_cases hq : v = q <;> simp_all
    · simp only [if_neg hgt]
      by_cases hp : v = p <;> by_cases hq : v = q <;> simp_all
  all_goals (rw [Engine.crushPairPlain]; split <;> rfl)

/-- `crush` is the plain pair steps, whatever the configuration (R105, R106). -/
theorem Engine.crush_eq_plain (cfg : Cfg) (e : Engine) :
    e.crush cfg = forUpTo 128 (fun p e => e.crushPairPlain (pairAddr p).1 (pairAddr p).2) e := by
  refine forUpTo_congr _ _ _ _ fun p _ y => ?_
  simp only [Engine.crushPairMasked_eq, ite_self]

theorem Engine.crushPairPlain_rearranges (e : Engine) (p q : Byte) : e.Rearranges (e.crushPairPlain p q) := by
  rw [Engine.crushPairPlain]
  split
  · exact e.swap_rearranges p q
  · exact .refl e

/-- `crush` writes S-box entries only (R105). -/
theorem Engine.crush_regs (cfg : Cfg) (e : Engine) :
    (e.crush cfg).i = e.i ∧ (e.crush cfg).j = e.j ∧ (e.crush cfg).k = e.k ∧ (e.crush cfg).z = e.z ∧
      (e.crush cfg).a = e.a ∧ (e.crush cfg).w = e.w := by
  rw [Engine.crush_eq_plain]
  refine forUpTo_keeps (fun y : Engine => y.i = e.i ∧ y.j = e.j ∧ y.k = e.k ∧ y.z = e.z ∧ y.a = e.a ∧ y.w = e.w)
    128 _ e ⟨rfl, rfl, rfl, rfl, rfl, rfl⟩ fun p _ y hy => ?_
  rw [Engine.crushPairPlain]
  split <;> exact hy

@[simp] theorem Engine.crush_i (cfg : Cfg) (e : Engine) : (e.crush cfg).i = e.i := (e.crush_regs cfg).1
@[simp] theorem Engine.crush_z (cfg : Cfg) (e : Engine) : (e.crush cfg).z = e.z := (e.crush_regs cfg).2.2.2.1
@[simp] theorem Engine.crush_a (cfg : Cfg) (e : Engine) : (e.crush cfg).a = e.a := (e.crush_regs cfg).2.2.2.2.1
@[simp] theorem Engine.crush_w (cfg : Cfg) (e : Engine) : (e.crush cfg).w = e.w := (e.crush_regs cfg).2.2.2.2.2

theorem Engine.crush_rearranges (cfg : Cfg) (e : Engine) : e.Rearranges (e.crush cfg) := by
  rw [Engine.crush_eq_plain]
  exact forUpTo_keeps (fun y => e.Rearranges y) 128 _ e (.refl e)
    fun p _ y hy => hy.trans (y.crushPairPlain_rearranges _ _)

/-! ### `shuffle` and the absorb steps -/

theorem Engine.shuffle_eq (cfg cfg' : Cfg) (e : Engine) : e.shuffle cfg = e.shuffle cfg' := by
  simp only [Engine.shuffle, Engine.crush_eq_plain]

@[simp] theorem Engine.shuffle_i (cfg : Cfg) (e : Engine) : (e.shuffle cfg).i = e.i := by
  simp [Engine.shuffle]

@[simp] theorem Engine.shuffle_z (cfg : Cfg) (e : Engine) : (e.shuffle cfg).z = e.z := by
  simp [Engine.shuffle]

@[simp] theorem Engine.shuffle_a (cfg : Cfg) (e : Engine) : (e.shuffle cfg).a = 0 := rfl

@[simp] theorem Engine.shuffle_w (cfg : Cfg) (e : Engine) : (e.shuffle cfg).w = e.w + 6 := by
  simp [Engine.shuffle, BitVec.add_assoc]

theorem Engine.shuffle_rearranges (cfg : Cfg) (e : Engine) : e.Rearranges (e.shuffle cfg) := by
  have h := ((((e.whip_rearranges 512).trans (Engine.crush_rearranges cfg _)).trans
    (Engine.whip_rearranges _ 512)).trans (Engine.crush_rearranges cfg _)).trans (Engine.whip_rearranges _ 512)
  exact h.of_s rfl

theorem Engine.shuffleIfFull_eq (cfg cfg' : Cfg) (e : Engine) : e.shuffleIfFull cfg = e.shuffleIfFull cfg' := by
  rw [Engine.shuffleIfFull, Engine.shuffleIfFull, Engine.shuffle_eq cfg cfg']

@[simp] theorem Engine.shuffleIfFull_z (cfg : Cfg) (e : Engine) : (e.shuffleIfFull cfg).z = e.z := by
  rw [Engine.shuffleIfFull]
  split <;> simp

theorem Engine.shuffleIfFull_rearranges (cfg : Cfg) (e : Engine) : e.Rearranges (e.shuffleIfFull cfg) := by
  rw [Engine.shuffleIfFull]
  split
  · exact e.shuffle_rearranges cfg
  · exact .refl e

/-- Before an absorb step `a` is below 128, if it was at most 128 (40_primitives.md R118). -/
theorem Engine.shuffleIfFull_a (cfg : Cfg) (e : Engine) (h : e.a ≤ 0x80#8) :
    (e.shuffleIfFull cfg).a < 0x80#8 := by
  rw [Engine.shuffleIfFull]
  split
  · simp
  · rename_i hne
    rw [BitVec.le_def] at h
    rw [BitVec.lt_def]
    have : e.a.toNat ≠ (0x80#8).toNat := fun hh => hne (BitVec.eq_of_toNat_eq hh)
    omega

theorem Engine.shuffleIfFull_of_ne (cfg : Cfg) (e : Engine) (h : e.a ≠ 0x80#8) : e.shuffleIfFull cfg = e := by
  rw [Engine.shuffleIfFull, if_neg h]

@[simp] theorem Engine.absorbNibble_a (cfg : Cfg) (e : Engine) (x : BitVec 4) :
    (e.absorbNibble cfg x).a = (e.shuffleIfFull cfg).a + 1 := rfl

@[simp] theorem Engine.absorbNibble_z (cfg : Cfg) (e : Engine) (x : BitVec 4) :
    (e.absorbNibble cfg x).z = e.z := e.shuffleIfFull_z cfg

@[simp] theorem Engine.absorbNibble_w (cfg : Cfg) (e : Engine) (x : BitVec 4) :
    (e.absorbNibble cfg x).w = (e.shuffleIfFull cfg).w := rfl

theorem Engine.load_absorbNibble (cfg : Cfg) (e : Engine) (x : BitVec 4) (v : Byte) :
    (e.absorbNibble cfg x).load v =
      (e.shuffleIfFull cfg).load (Equiv.swap (e.shuffleIfFull cfg).a (nibbleAddr x) v) :=
  Engine.load_swap _ _ _ v

theorem Engine.absorbNibble_rearranges (cfg : Cfg) (e : Engine) (x : BitVec 4) :
    e.Rearranges (e.absorbNibble cfg x) :=
  ((e.shuffleIfFull_rearranges cfg).trans (Engine.swap_rearranges _ _ _)).of_s rfl

theorem Engine.absorbNibble_eq (cfg cfg' : Cfg) (e : Engine) (x : BitVec 4) :
    e.absorbNibble cfg x = e.absorbNibble cfg' x := by
  rw [Engine.absorbNibble, Engine.absorbNibble, Engine.shuffleIfFull_eq cfg cfg']

theorem Engine.absorbByte_eq (cfg cfg' : Cfg) (e : Engine) (b : Byte) :
    e.absorbByte cfg b = e.absorbByte cfg' b := by
  rw [Engine.absorbByte, Engine.absorbByte, Engine.absorbNibble_eq cfg cfg', Engine.absorbNibble_eq cfg cfg']

theorem Engine.absorbByte_rearranges (cfg : Cfg) (e : Engine) (b : Byte) : e.Rearranges (e.absorbByte cfg b) :=
  (e.absorbNibble_rearranges cfg _).trans (Engine.absorbNibble_rearranges cfg _ _)

theorem Engine.absorbStop_eq (cfg cfg' : Cfg) (e : Engine) : e.absorbStop cfg = e.absorbStop cfg' := by
  rw [Engine.absorbStop, Engine.absorbStop, Engine.shuffleIfFull_eq cfg cfg']

theorem Engine.absorbStop_rearranges (cfg : Cfg) (e : Engine) : e.Rearranges (e.absorbStop cfg) :=
  (e.shuffleIfFull_rearranges cfg).of_s rfl

/-! ### Output -/

@[simp] theorem Engine.output_byte (e : Engine) : e.output.byte = e.output.engine.z := rfl
@[simp] theorem Engine.output_a (e : Engine) : e.output.engine.a = e.a := rfl
@[simp] theorem Engine.output_w (e : Engine) : e.output.engine.w = e.w := rfl
@[simp] theorem Engine.output_i (e : Engine) : e.output.engine.i = e.update.i := rfl
@[simp] theorem Engine.output_j (e : Engine) : e.output.engine.j = e.update.j := rfl
@[simp] theorem Engine.output_k (e : Engine) : e.output.engine.k = e.update.k := rfl

theorem Engine.output_s (e : Engine) : e.output.engine.s = e.update.s := rfl

@[simp] theorem Engine.output_load (e : Engine) (v : Byte) : e.output.engine.load v = e.update.load v := by
  rw [Engine.load, Engine.load, Engine.output_s]

theorem Engine.output_rearranges (e : Engine) : e.Rearranges e.output.engine := by
  exact e.update_rearranges.of_s e.output_s

/-- The engine a drip outputs from: shuffled when `a > 0` (R113). -/
theorem Engine.drip_def (cfg : Cfg) (e : Engine) :
    e.drip cfg = (if e.a > 0#8 then e.shuffle cfg else e).output := rfl

/-- `z` is the byte just returned (10_state.md R23). -/
theorem Engine.drip_z (cfg : Cfg) (e : Engine) : (e.drip cfg).engine.z = (e.drip cfg).byte := by
  rw [Engine.drip_def, Engine.output_byte]

theorem Engine.drip_eq (cfg cfg' : Cfg) (e : Engine) : e.drip cfg = e.drip cfg' := by
  rw [Engine.drip_def, Engine.drip_def, Engine.shuffle_eq cfg cfg']

@[simp] theorem Engine.drip_a (cfg : Cfg) (e : Engine) : (e.drip cfg).engine.a = 0 := by
  rw [Engine.drip_def, Engine.output_a]
  split
  · rfl
  · rename_i h
    rw [gt_iff_lt, BitVec.lt_def] at h
    exact BitVec.eq_of_toNat_eq (by simpa using h)

theorem Engine.drip_rearranges (cfg : Cfg) (e : Engine) : e.Rearranges (e.drip cfg).engine := by
  rw [Engine.drip_def]
  split
  · exact (e.shuffle_rearranges cfg).trans (Engine.output_rearranges _)
  · exact e.output_rearranges

/-! ### `squeeze` and the draws -/

@[simp] theorem Engine.squeeze_zero (cfg : Cfg) (e : Engine) : e.squeeze cfg 0 = ⟨[], e⟩ := rfl

theorem Engine.squeeze_succ (cfg : Cfg) (e : Engine) (n : Nat) :
    e.squeeze cfg (n + 1) =
      ⟨(e.drip cfg).byte :: ((e.drip cfg).engine.squeeze cfg n).bytes, ((e.drip cfg).engine.squeeze cfg n).engine⟩ :=
  rfl

theorem Engine.squeeze_length (cfg : Cfg) (e : Engine) (n : Nat) : (e.squeeze cfg n).bytes.length = n := by
  induction n generalizing e with
  | zero => rfl
  | succ n ih => rw [Engine.squeeze_succ, List.length_cons, ih]

theorem Engine.squeeze_rearranges (cfg : Cfg) (e : Engine) (n : Nat) : e.Rearranges (e.squeeze cfg n).engine := by
  induction n generalizing e with
  | zero => exact .refl e
  | succ n ih => exact (e.drip_rearranges cfg).trans (ih _)

theorem Engine.squeeze_eq (cfg cfg' : Cfg) (e : Engine) (n : Nat) : e.squeeze cfg n = e.squeeze cfg' n := by
  induction n generalizing e with
  | zero => rfl
  | succ n ih => rw [Engine.squeeze_succ, Engine.squeeze_succ, Engine.drip_eq cfg cfg', ih]

/-- A draw is what four drips squeeze. -/
theorem Engine.draw_squeeze (cfg : Cfg) (e : Engine) :
    e.squeeze cfg 4 = ⟨(e.draw cfg).bytes, (e.draw cfg).engine⟩ := rfl

theorem Engine.draw_rearranges (cfg : Cfg) (e : Engine) : e.Rearranges (e.draw cfg).engine :=
  e.squeeze_rearranges cfg 4

theorem Engine.draw_eq (cfg cfg' : Cfg) (e : Engine) : e.draw cfg = e.draw cfg' := by
  simp only [Engine.draw, Engine.drip_eq cfg cfg']

@[simp] theorem Engine.draw_a (cfg : Cfg) (e : Engine) : (e.draw cfg).engine.a = 0 := Engine.drip_a cfg _

theorem Engine.sample_eq (cfg cfg' : Cfg) (upper : Word) (n : Nat) (e : Engine) :
    e.sample cfg upper n = e.sample cfg' upper n := by
  induction n generalizing e with
  | zero => rfl
  | succ n ih => simp only [Engine.sample, Engine.draw_eq cfg cfg', ih]

/-- The bytes of an assembled word are the four bytes it was assembled from (20_memory.md R58). -/
theorem bytesOfWord_wordOfBytes (b1 b2 b3 b4 : Byte) :
    bytesOfWord (wordOfBytes b1 b2 b3 b4) = [b1, b2, b3, b4] := by
  simp only [bytesOfWord, wordOfBytes, List.cons.injEq, and_true]
  refine ⟨?_, ?_, ?_, ?_⟩ <;> ext n hn <;>
    simp only [BitVec.getElem_extractLsb', BitVec.getLsbD_or, BitVec.getLsbD_shiftLeft, BitVec.getLsbD_setWidth]
  all_goals interval_cases n <;> simp

theorem Draw.bytesOfWord_word (d : Draw) : bytesOfWord d.word = d.bytes := bytesOfWord_wordOfBytes _ _ _ _

end Sys2Proof.Machine
end

