-- ==== Sys2Proof/Laws/State.lean ====
section
/-! SUPPORT. One lemma per field per update of the state, so that no proof unfolds a record update. The
lemmas of one update stand together; all but those of `settle` and `complete` hold by `rfl`. -/

namespace Sys2Proof.Machine

open Sys2Proof

variable (s : State)

/-! ### `State.advance` -/

@[simp] theorem State.advance_ctx (n : Nat) : (s.advance n).ctx = s.ctx := rfl
@[simp] theorem State.advance_live (n : Nat) : (s.advance n).live = s.live := rfl
@[simp] theorem State.advance_err (n : Nat) : (s.advance n).err = s.err := rfl
@[simp] theorem State.advance_c (n : Nat) : (s.advance n).c = s.c := rfl
@[simp] theorem State.advance_t0 (n : Nat) : (s.advance n).t0 = s.t0 := rfl
@[simp] theorem State.advance_t1 (n : Nat) : (s.advance n).t1 = s.t1 := rfl
@[simp] theorem State.advance_asm (n : Nat) : (s.advance n).asm = s.asm := rfl
@[simp] theorem State.advance_seq (n : Nat) : (s.advance n).seq = s.seq := rfl
@[simp] theorem State.advance_pc (n : Nat) : (s.advance n).pc = s.pc + n := rfl
@[simp] theorem State.advance_out (n : Nat) : (s.advance n).out = s.out := rfl
@[simp] theorem State.advance_cfg (n : Nat) : (s.advance n).cfg = s.cfg := rfl
@[simp] theorem State.advance_cmd (n : Nat) : (s.advance n).cmd = s.cmd := rfl
@[simp] theorem State.advance_rst (n : Nat) : (s.advance n).rst = s.rst := rfl
@[simp] theorem State.advance_fresh (n : Nat) : (s.advance n).fresh = s.fresh := rfl

/-! ### `State.discard` -/

@[simp] theorem State.discard_ctx (n : Nat) : (s.discard n).ctx = s.ctx := rfl
@[simp] theorem State.discard_live (n : Nat) : (s.discard n).live = s.live := rfl
@[simp] theorem State.discard_err (n : Nat) : (s.discard n).err = s.err := rfl
@[simp] theorem State.discard_c (n : Nat) : (s.discard n).c = s.c := rfl
@[simp] theorem State.discard_t0 (n : Nat) : (s.discard n).t0 = s.t0 := rfl
@[simp] theorem State.discard_t1 (n : Nat) : (s.discard n).t1 = s.t1 := rfl
@[simp] theorem State.discard_asm (n : Nat) : (s.discard n).asm = s.asm := rfl
@[simp] theorem State.discard_seq (n : Nat) : (s.discard n).seq = s.seq := rfl
@[simp] theorem State.discard_pc (n : Nat) : (s.discard n).pc = s.pc + n := rfl
@[simp] theorem State.discard_out (n : Nat) : (s.discard n).out = s.out := rfl
@[simp] theorem State.discard_cfg (n : Nat) : (s.discard n).cfg = s.cfg := rfl
@[simp] theorem State.discard_cmd (n : Nat) : (s.discard n).cmd = s.cmd := rfl
@[simp] theorem State.discard_rst (n : Nat) : (s.discard n).rst = s.rst := rfl
@[simp] theorem State.discard_fresh (n : Nat) : (s.discard n).fresh = s.fresh := rfl

/-! ### `State.emit` -/

@[simp] theorem State.emit_ctx (b : Byte) : (s.emit b).ctx = s.ctx := rfl
@[simp] theorem State.emit_live (b : Byte) : (s.emit b).live = s.live := rfl
@[simp] theorem State.emit_err (b : Byte) : (s.emit b).err = s.err := rfl
@[simp] theorem State.emit_c (b : Byte) : (s.emit b).c = s.c := rfl
@[simp] theorem State.emit_t0 (b : Byte) : (s.emit b).t0 = s.t0 := rfl
@[simp] theorem State.emit_t1 (b : Byte) : (s.emit b).t1 = s.t1 := rfl
@[simp] theorem State.emit_asm (b : Byte) : (s.emit b).asm = s.asm := rfl
@[simp] theorem State.emit_seq (b : Byte) : (s.emit b).seq = s.seq := rfl
@[simp] theorem State.emit_pc (b : Byte) : (s.emit b).pc = s.pc := rfl
@[simp] theorem State.emit_out (b : Byte) : (s.emit b).out = s.out ++ [b] := rfl
@[simp] theorem State.emit_cfg (b : Byte) : (s.emit b).cfg = s.cfg := rfl
@[simp] theorem State.emit_cmd (b : Byte) : (s.emit b).cmd = s.cmd := rfl
@[simp] theorem State.emit_rst (b : Byte) : (s.emit b).rst = s.rst := rfl
@[simp] theorem State.emit_fresh (b : Byte) : (s.emit b).fresh = s.fresh := rfl

/-! ### `State.emitAll` -/

@[simp] theorem State.emitAll_ctx (bs : List Byte) : (s.emitAll bs).ctx = s.ctx := rfl
@[simp] theorem State.emitAll_live (bs : List Byte) : (s.emitAll bs).live = s.live := rfl
@[simp] theorem State.emitAll_err (bs : List Byte) : (s.emitAll bs).err = s.err := rfl
@[simp] theorem State.emitAll_c (bs : List Byte) : (s.emitAll bs).c = s.c := rfl
@[simp] theorem State.emitAll_t0 (bs : List Byte) : (s.emitAll bs).t0 = s.t0 := rfl
@[simp] theorem State.emitAll_t1 (bs : List Byte) : (s.emitAll bs).t1 = s.t1 := rfl
@[simp] theorem State.emitAll_asm (bs : List Byte) : (s.emitAll bs).asm = s.asm := rfl
@[simp] theorem State.emitAll_seq (bs : List Byte) : (s.emitAll bs).seq = s.seq := rfl
@[simp] theorem State.emitAll_pc (bs : List Byte) : (s.emitAll bs).pc = s.pc := rfl
@[simp] theorem State.emitAll_out (bs : List Byte) : (s.emitAll bs).out = s.out ++ bs := rfl
@[simp] theorem State.emitAll_cfg (bs : List Byte) : (s.emitAll bs).cfg = s.cfg := rfl
@[simp] theorem State.emitAll_cmd (bs : List Byte) : (s.emitAll bs).cmd = s.cmd := rfl
@[simp] theorem State.emitAll_rst (bs : List Byte) : (s.emitAll bs).rst = s.rst := rfl
@[simp] theorem State.emitAll_fresh (bs : List Byte) : (s.emitAll bs).fresh = s.fresh := rfl

/-! ### `State.setEngine` -/

@[simp] theorem State.setEngine_ctx (e : Engine) : (s.setEngine e).ctx = e.toCtx := rfl
@[simp] theorem State.setEngine_live (e : Engine) : (s.setEngine e).live = s.live := rfl
@[simp] theorem State.setEngine_err (e : Engine) : (s.setEngine e).err = s.err := rfl
@[simp] theorem State.setEngine_c (e : Engine) : (s.setEngine e).c = s.c := rfl
@[simp] theorem State.setEngine_t0 (e : Engine) : (s.setEngine e).t0 = s.t0 := rfl
@[simp] theorem State.setEngine_t1 (e : Engine) : (s.setEngine e).t1 = s.t1 := rfl
@[simp] theorem State.setEngine_asm (e : Engine) : (s.setEngine e).asm = s.asm := rfl
@[simp] theorem State.setEngine_seq (e : Engine) : (s.setEngine e).seq = s.seq := rfl
@[simp] theorem State.setEngine_pc (e : Engine) : (s.setEngine e).pc = s.pc := rfl
@[simp] theorem State.setEngine_out (e : Engine) : (s.setEngine e).out = s.out := rfl
@[simp] theorem State.setEngine_cfg (e : Engine) : (s.setEngine e).cfg = s.cfg := rfl
@[simp] theorem State.setEngine_cmd (e : Engine) : (s.setEngine e).cmd = s.cmd := rfl
@[simp] theorem State.setEngine_rst (e : Engine) : (s.setEngine e).rst = s.rst := rfl
@[simp] theorem State.setEngine_fresh (e : Engine) : (s.setEngine e).fresh = s.fresh := rfl

/-! ### `State.ctxWipe` -/

@[simp] theorem State.ctxWipe_ctx : (s.ctxWipe).ctx = Ctx.zero := rfl
@[simp] theorem State.ctxWipe_live : (s.ctxWipe).live = false := rfl
@[simp] theorem State.ctxWipe_err : (s.ctxWipe).err = s.err := rfl
@[simp] theorem State.ctxWipe_c : (s.ctxWipe).c = s.c := rfl
@[simp] theorem State.ctxWipe_t0 : (s.ctxWipe).t0 = 0 := rfl
@[simp] theorem State.ctxWipe_t1 : (s.ctxWipe).t1 = 0 := rfl
@[simp] theorem State.ctxWipe_asm : (s.ctxWipe).asm = s.asm := rfl
@[simp] theorem State.ctxWipe_seq : (s.ctxWipe).seq = s.seq := rfl
@[simp] theorem State.ctxWipe_pc : (s.ctxWipe).pc = s.pc := rfl
@[simp] theorem State.ctxWipe_out : (s.ctxWipe).out = s.out := rfl
@[simp] theorem State.ctxWipe_cfg : (s.ctxWipe).cfg = s.cfg := rfl
@[simp] theorem State.ctxWipe_cmd : (s.ctxWipe).cmd = s.cmd := rfl
@[simp] theorem State.ctxWipe_rst : (s.ctxWipe).rst = s.rst := rfl
@[simp] theorem State.ctxWipe_fresh : (s.ctxWipe).fresh = s.fresh := rfl

/-! ### `State.faultEntry` -/

@[simp] theorem State.faultEntry_ctx (cause : Cause) : (s.faultEntry cause).ctx = Ctx.zero := rfl
@[simp] theorem State.faultEntry_live (cause : Cause) : (s.faultEntry cause).live = false := rfl
@[simp] theorem State.faultEntry_err (cause : Cause) : (s.faultEntry cause).err = cause.code := rfl
@[simp] theorem State.faultEntry_c (cause : Cause) : (s.faultEntry cause).c = s.c := rfl
@[simp] theorem State.faultEntry_t0 (cause : Cause) : (s.faultEntry cause).t0 = 0 := rfl
@[simp] theorem State.faultEntry_t1 (cause : Cause) : (s.faultEntry cause).t1 = 0 := rfl
@[simp] theorem State.faultEntry_asm (cause : Cause) : (s.faultEntry cause).asm = [] := rfl
@[simp] theorem State.faultEntry_seq (cause : Cause) : (s.faultEntry cause).seq = s.seq := rfl
@[simp] theorem State.faultEntry_pc (cause : Cause) : (s.faultEntry cause).pc = s.pc := rfl
@[simp] theorem State.faultEntry_out (cause : Cause) : (s.faultEntry cause).out = s.out := rfl
@[simp] theorem State.faultEntry_cfg (cause : Cause) : (s.faultEntry cause).cfg = s.cfg := rfl
@[simp] theorem State.faultEntry_cmd (cause : Cause) : (s.faultEntry cause).cmd = s.cmd := rfl
@[simp] theorem State.faultEntry_rst (cause : Cause) : (s.faultEntry cause).rst = s.rst := rfl
@[simp] theorem State.faultEntry_fresh (cause : Cause) : (s.faultEntry cause).fresh = s.fresh := rfl

/-! ### `State.resetNow` -/

@[simp] theorem State.resetNow_ctx : (s.resetNow).ctx = Ctx.zero := rfl
@[simp] theorem State.resetNow_live : (s.resetNow).live = false := rfl
@[simp] theorem State.resetNow_err : (s.resetNow).err = 0 := rfl
@[simp] theorem State.resetNow_c : (s.resetNow).c = 0 := rfl
@[simp] theorem State.resetNow_t0 : (s.resetNow).t0 = 0 := rfl
@[simp] theorem State.resetNow_t1 : (s.resetNow).t1 = 0 := rfl
@[simp] theorem State.resetNow_asm : (s.resetNow).asm = [] := rfl
@[simp] theorem State.resetNow_seq : (s.resetNow).seq = .idle := rfl
@[simp] theorem State.resetNow_pc : (s.resetNow).pc = 0 := rfl
@[simp] theorem State.resetNow_out : (s.resetNow).out = s.out := rfl
@[simp] theorem State.resetNow_cfg : (s.resetNow).cfg = s.cfg := rfl
@[simp] theorem State.resetNow_cmd : (s.resetNow).cmd = s.cmd := rfl
@[simp] theorem State.resetNow_rst : (s.resetNow).rst = .low := rfl
@[simp] theorem State.resetNow_fresh : (s.resetNow).fresh = s.fresh := rfl

/-! ### `State.taken` -/

@[simp] theorem State.taken_ctx (rest : List Byte) : (s.taken rest).ctx = s.ctx := rfl
@[simp] theorem State.taken_live (rest : List Byte) : (s.taken rest).live = s.live := rfl
@[simp] theorem State.taken_err (rest : List Byte) : (s.taken rest).err = s.err := rfl
@[simp] theorem State.taken_c (rest : List Byte) : (s.taken rest).c = s.c := rfl
@[simp] theorem State.taken_t0 (rest : List Byte) : (s.taken rest).t0 = s.t0 := rfl
@[simp] theorem State.taken_t1 (rest : List Byte) : (s.taken rest).t1 = s.t1 := rfl
@[simp] theorem State.taken_asm (rest : List Byte) : (s.taken rest).asm = [] := rfl
@[simp] theorem State.taken_seq (rest : List Byte) : (s.taken rest).seq = s.seq := rfl
@[simp] theorem State.taken_pc (rest : List Byte) : (s.taken rest).pc = s.pc := rfl
@[simp] theorem State.taken_out (rest : List Byte) : (s.taken rest).out = s.out := rfl
@[simp] theorem State.taken_cfg (rest : List Byte) : (s.taken rest).cfg = s.cfg := rfl
@[simp] theorem State.taken_cmd (rest : List Byte) : (s.taken rest).cmd = rest := rfl
@[simp] theorem State.taken_rst (rest : List Byte) : (s.taken rest).rst = s.rst := rfl
@[simp] theorem State.taken_fresh (rest : List Byte) : (s.taken rest).fresh = s.fresh := rfl

/-! ### `State.hold` -/

@[simp] theorem State.hold_ctx : (s.hold).ctx = s.ctx := rfl
@[simp] theorem State.hold_live : (s.hold).live = s.live := rfl
@[simp] theorem State.hold_err : (s.hold).err = s.err := rfl
@[simp] theorem State.hold_c : (s.hold).c = s.c := rfl
@[simp] theorem State.hold_t0 : (s.hold).t0 = s.t0 := rfl
@[simp] theorem State.hold_t1 : (s.hold).t1 = s.t1 := rfl
@[simp] theorem State.hold_asm : (s.hold).asm = s.asm ++ s.cmd := rfl
@[simp] theorem State.hold_seq : (s.hold).seq = s.seq := rfl
@[simp] theorem State.hold_pc : (s.hold).pc = s.pc := rfl
@[simp] theorem State.hold_out : (s.hold).out = s.out := rfl
@[simp] theorem State.hold_cfg : (s.hold).cfg = s.cfg := rfl
@[simp] theorem State.hold_cmd : (s.hold).cmd = [] := rfl
@[simp] theorem State.hold_rst : (s.hold).rst = s.rst := rfl
@[simp] theorem State.hold_fresh : (s.hold).fresh = s.fresh := rfl

/-! ### `State.pushAll` -/

@[simp] theorem State.pushAll_ctx (bs : List Byte) : (s.pushAll bs).ctx = s.ctx := rfl
@[simp] theorem State.pushAll_live (bs : List Byte) : (s.pushAll bs).live = s.live := rfl
@[simp] theorem State.pushAll_err (bs : List Byte) : (s.pushAll bs).err = s.err := rfl
@[simp] theorem State.pushAll_c (bs : List Byte) : (s.pushAll bs).c = s.c := rfl
@[simp] theorem State.pushAll_t0 (bs : List Byte) : (s.pushAll bs).t0 = s.t0 := rfl
@[simp] theorem State.pushAll_t1 (bs : List Byte) : (s.pushAll bs).t1 = s.t1 := rfl
@[simp] theorem State.pushAll_asm (bs : List Byte) : (s.pushAll bs).asm = s.asm := rfl
@[simp] theorem State.pushAll_seq (bs : List Byte) : (s.pushAll bs).seq = s.seq := rfl
@[simp] theorem State.pushAll_pc (bs : List Byte) : (s.pushAll bs).pc = s.pc := rfl
@[simp] theorem State.pushAll_out (bs : List Byte) : (s.pushAll bs).out = s.out := rfl
@[simp] theorem State.pushAll_cfg (bs : List Byte) : (s.pushAll bs).cfg = s.cfg := rfl
@[simp] theorem State.pushAll_cmd (bs : List Byte) : (s.pushAll bs).cmd = s.cmd ++ bs := rfl
@[simp] theorem State.pushAll_rst (bs : List Byte) : (s.pushAll bs).rst = s.rst := rfl
@[simp] theorem State.pushAll_fresh (bs : List Byte) : (s.pushAll bs).fresh = s.fresh := rfl

/-! ### `State.settle` and `State.complete` (10_state.md R33) -/

/-- What `settle` can do: the latches change (both zero under PARANOID), and the count of free values. -/
theorem State.settle_cases (used : Bool) :
    (s.cfg.wipeAfterUsageParanoid = true ∧ s.settle used = { s with t0 := 0, t1 := 0 }) ∨
    (s.cfg.wipeAfterUsageParanoid = false ∧ used = true ∧
      s.settle used =
        { s with t0 := Config.freeLatch s.fresh, t1 := Config.freeLatch (s.fresh + 1), fresh := s.fresh + 2 }) ∨
    (s.cfg.wipeAfterUsageParanoid = false ∧ used = false ∧ s.settle used = s) := by
  unfold State.settle
  cases s.cfg.wipeAfterUsageParanoid <;> cases used <;> simp

theorem State.settle_paranoid (used : Bool) (h : s.cfg.wipeAfterUsageParanoid = true) :
    (s.settle used).t0 = 0 ∧ (s.settle used).t1 = 0 := by
  simp [State.settle, h]

/-- A command that does not use the latches leaves the machine as it is, where the latches are clear. -/
theorem State.settle_unused (h : s.cfg.wipeAfterUsageParanoid = true → s.t0 = 0 ∧ s.t1 = 0) :
    s.settle false = s := by
  unfold State.settle
  split
  · rename_i hp
    obtain ⟨h0, h1⟩ := h hp
    cases s
    simp_all
  · simp

@[simp] theorem State.settle_ctx (used : Bool) : (s.settle used).ctx = s.ctx := by
  unfold State.settle
  split
  · rfl
  · split <;> rfl
@[simp] theorem State.settle_live (used : Bool) : (s.settle used).live = s.live := by
  unfold State.settle
  split
  · rfl
  · split <;> rfl
@[simp] theorem State.settle_err (used : Bool) : (s.settle used).err = s.err := by
  unfold State.settle
  split
  · rfl
  · split <;> rfl
@[simp] theorem State.settle_c (used : Bool) : (s.settle used).c = s.c := by
  unfold State.settle
  split
  · rfl
  · split <;> rfl
@[simp] theorem State.settle_asm (used : Bool) : (s.settle used).asm = s.asm := by
  unfold State.settle
  split
  · rfl
  · split <;> rfl
@[simp] theorem State.settle_seq (used : Bool) : (s.settle used).seq = s.seq := by
  unfold State.settle
  split
  · rfl
  · split <;> rfl
@[simp] theorem State.settle_pc (used : Bool) : (s.settle used).pc = s.pc := by
  unfold State.settle
  split
  · rfl
  · split <;> rfl
@[simp] theorem State.settle_out (used : Bool) : (s.settle used).out = s.out := by
  unfold State.settle
  split
  · rfl
  · split <;> rfl
@[simp] theorem State.settle_cfg (used : Bool) : (s.settle used).cfg = s.cfg := by
  unfold State.settle
  split
  · rfl
  · split <;> rfl
@[simp] theorem State.settle_cmd (used : Bool) : (s.settle used).cmd = s.cmd := by
  unfold State.settle
  split
  · rfl
  · split <;> rfl
@[simp] theorem State.settle_rst (used : Bool) : (s.settle used).rst = s.rst := by
  unfold State.settle
  split
  · rfl
  · split <;> rfl

@[simp] theorem State.complete_ctx (used : Bool) (n : Nat) : (s.complete used n).ctx = s.ctx := by
  simp [State.complete]
@[simp] theorem State.complete_live (used : Bool) (n : Nat) : (s.complete used n).live = s.live := by
  simp [State.complete]
@[simp] theorem State.complete_err (used : Bool) (n : Nat) : (s.complete used n).err = s.err := by
  simp [State.complete]
@[simp] theorem State.complete_c (used : Bool) (n : Nat) : (s.complete used n).c = s.c := by
  simp [State.complete]
@[simp] theorem State.complete_asm (used : Bool) (n : Nat) : (s.complete used n).asm = s.asm := by
  simp [State.complete]
@[simp] theorem State.complete_seq (used : Bool) (n : Nat) : (s.complete used n).seq = s.seq := by
  simp [State.complete]
@[simp] theorem State.complete_pc (used : Bool) (n : Nat) : (s.complete used n).pc = s.pc + n := by
  simp [State.complete]
@[simp] theorem State.complete_out (used : Bool) (n : Nat) : (s.complete used n).out = s.out := by
  simp [State.complete]
@[simp] theorem State.complete_cfg (used : Bool) (n : Nat) : (s.complete used n).cfg = s.cfg := by
  simp [State.complete]
@[simp] theorem State.complete_cmd (used : Bool) (n : Nat) : (s.complete used n).cmd = s.cmd := by
  simp [State.complete]
@[simp] theorem State.complete_rst (used : Bool) (n : Nat) : (s.complete used n).rst = s.rst := by
  simp [State.complete]

theorem State.complete_paranoid (used : Bool) (n : Nat) (h : s.cfg.wipeAfterUsageParanoid = true) :
    (s.complete used n).t0 = 0 ∧ (s.complete used n).t1 = 0 := s.settle_paranoid used h

theorem State.complete_unused (n : Nat) (h : s.cfg.wipeAfterUsageParanoid = true → s.t0 = 0 ∧ s.t1 = 0) :
    s.complete false n = s.advance n := by
  rw [State.complete, State.settle_unused s h]

/-! ### The engine's view -/

@[simp] theorem State.engine_setEngine_ctx (e : Engine) : (s.setEngine e).ctx = e.toCtx := rfl

theorem State.engine_def : s.engine = s.ctx.toEngine := rfl

end Sys2Proof.Machine
end

