-- ==== Sys2Proof/Laws/Ops.lean ====
section
/-! SUPPORT. What the shared operations of the machine can do, each said once: the two gates every command
passes, `UNIF`'s loop, the step, and that the micro-operations keep what R26 says of a live context. -/

namespace Sys2Proof.Machine

open Sys2Proof

/-! ### The gates (41_setup_absorb.md R130) -/

theorem State.command_unlocked (s : State) (len : Nat) (body : State → State) (h : s.err = 0) :
    s.command len body = .next (body s) := by
  rw [State.command, if_pos h]

theorem State.command_locked (s : State) (len : Nat) (body : State → State) (h : s.err ≠ 0) :
    s.command len body = .next (s.discard len) := by
  rw [State.command, if_neg h]

theorem State.contextCommand_live (s : State) (len : Nat) (body : State → State) (h : s.err = 0)
    (hl : s.live = true) : s.contextCommand len body = .next (body s) := by
  rw [State.contextCommand, State.command_unlocked _ _ _ h, State.requireLive, if_pos hl]

theorem State.contextCommand_dead (s : State) (len : Nat) (body : State → State) (h : s.err = 0)
    (hl : s.live = false) : s.contextCommand len body = .next ((s.faultEntry .notLive).advance len) := by
  rw [State.contextCommand, State.command_unlocked _ _ _ h, State.requireLive, if_neg (by simp [hl])]

theorem State.contextCommand_locked (s : State) (len : Nat) (body : State → State) (h : s.err ≠ 0) :
    s.contextCommand len body = .next (s.discard len) := State.command_locked s len _ h

/-- All a command without `require_live` can do. -/
theorem State.command_cases (s t : State) (len : Nat) (body : State → State) (h : s.command len body = .next t) :
    (s.err ≠ 0 ∧ t = s.discard len) ∨ (s.err = 0 ∧ t = body s) := by
  by_cases he : s.err = 0
  · rw [State.command_unlocked _ _ _ he] at h
    exact .inr ⟨he, by cases h; rfl⟩
  · rw [State.command_locked _ _ _ he] at h
    exact .inl ⟨he, by cases h; rfl⟩

/-- All a context command can do: discard on a locked block, fault on a dead context, or its own effect. -/
theorem State.contextCommand_cases (s t : State) (len : Nat) (body : State → State)
    (h : s.contextCommand len body = .next t) :
    (s.err ≠ 0 ∧ t = s.discard len) ∨
    (s.err = 0 ∧ s.live = false ∧ t = (s.faultEntry .notLive).advance len) ∨
    (s.err = 0 ∧ s.live = true ∧ t = body s) := by
  rcases s.command_cases t len _ h with ⟨he, ht⟩ | ⟨he, ht⟩
  · exact .inl ⟨he, ht⟩
  · cases hl : s.live
    · exact .inr (.inl ⟨he, rfl, by rw [ht, State.requireLive, if_neg (by simp [hl])]⟩)
    · exact .inr (.inr ⟨he, rfl, by rw [ht, State.requireLive, if_pos hl]⟩)

/-! ### The latches -/

theorem State.complete_latches (s : State) (used : Bool) (len : Nat) :
    (s.complete used len).LatchesClear := by
  intro hp
  rw [State.complete_cfg] at hp
  exact s.complete_paranoid used len hp

theorem State.settle_latches (s : State) (used : Bool) : (s.settle used).LatchesClear := by
  intro hp
  rw [State.settle_cfg] at hp
  exact s.settle_paranoid used hp

/-! ### `UNIF`'s loop (42_keystream_crypt.md R153, R154) -/

@[simp] theorem Engine.afterDraws_zero (cfg : Cfg) (e : Engine) : e.afterDraws cfg 0 = e := rfl

theorem Engine.afterDraws_succ (cfg : Cfg) (e : Engine) (k : Nat) :
    e.afterDraws cfg (k + 1) = (e.draw cfg).engine.afterDraws cfg k := rfl

theorem Engine.afterDraws_add (cfg : Cfg) (e : Engine) (m n : Nat) :
    e.afterDraws cfg (m + n) = (e.afterDraws cfg m).afterDraws cfg n := by
  rw [Engine.afterDraws, Nat.add_comm, Function.iterate_add_apply]
  rfl

theorem Engine.nthDraw_zero (cfg : Cfg) (e : Engine) : e.nthDraw cfg 0 = e.draw cfg := rfl

theorem Engine.nthDraw_succ (cfg : Cfg) (e : Engine) (k : Nat) :
    e.nthDraw cfg (k + 1) = (e.draw cfg).engine.nthDraw cfg k := rfl

theorem Engine.nthDraw_add (cfg : Cfg) (e : Engine) (m n : Nat) :
    e.nthDraw cfg (m + n) = (e.afterDraws cfg m).nthDraw cfg n := by
  rw [Engine.nthDraw, Engine.afterDraws_add, ← Engine.nthDraw]

/-- When the first `k` draws are rejected and draw `k` is accepted, the loop ends with it. -/
theorem Engine.sample_of_accepted (cfg : Cfg) (upper : Word) (fuel k : Nat) (e : Engine) (hk : k < fuel)
    (hrej : ∀ n < k, unifAccepts upper (e.nthDraw cfg n).word = false)
    (hacc : unifAccepts upper (e.nthDraw cfg k).word = true) :
    e.sample cfg upper fuel = .accepted (e.nthDraw cfg k).word (e.nthDraw cfg k).engine := by
  induction k generalizing e fuel with
  | zero =>
    obtain ⟨fuel, rfl⟩ : ∃ f, fuel = f + 1 := ⟨fuel - 1, by omega⟩
    rw [Engine.nthDraw_zero] at hacc
    simp [Engine.sample, hacc, Engine.nthDraw_zero]
  | succ k ih =>
    obtain ⟨fuel, rfl⟩ : ∃ f, fuel = f + 1 := ⟨fuel - 1, by omega⟩
    have h0 := hrej 0 (by omega)
    rw [Engine.nthDraw_zero] at h0
    simp only [Engine.sample, h0, Bool.false_eq_true, if_false]
    exact ih fuel (e.draw cfg).engine (by omega) (fun n hn => hrej (n + 1) (by omega)) hacc

/-- When the first `fuel` draws are all rejected, the loop is pending after them. -/
theorem Engine.sample_of_rejected (cfg : Cfg) (upper : Word) (fuel : Nat) (e : Engine)
    (hrej : ∀ n < fuel, unifAccepts upper (e.nthDraw cfg n).word = false) :
    e.sample cfg upper fuel = .pending (e.afterDraws cfg fuel) := by
  induction fuel generalizing e with
  | zero => rfl
  | succ fuel ih =>
    have h0 := hrej 0 (by omega)
    rw [Engine.nthDraw_zero] at h0
    simp only [Engine.sample, h0, Bool.false_eq_true, if_false]
    exact ih (e.draw cfg).engine fun n hn => hrej (n + 1) (by omega)

/-- All the loop can come to. -/
theorem Engine.sample_cases (cfg : Cfg) (upper : Word) (fuel : Nat) (e : Engine) :
    (∃ k < fuel, (∀ n < k, unifAccepts upper (e.nthDraw cfg n).word = false) ∧
      unifAccepts upper (e.nthDraw cfg k).word = true ∧
      e.sample cfg upper fuel = .accepted (e.nthDraw cfg k).word (e.nthDraw cfg k).engine) ∨
    ((∀ n < fuel, unifAccepts upper (e.nthDraw cfg n).word = false) ∧
      e.sample cfg upper fuel = .pending (e.afterDraws cfg fuel)) := by
  by_cases h : ∃ k < fuel, unifAccepts upper (e.nthDraw cfg k).word = true
  · have hex : ∃ k, k < fuel ∧ unifAccepts upper (e.nthDraw cfg k).word = true := h
    have hk := Nat.find_spec hex
    have hrej : ∀ n < Nat.find hex, unifAccepts upper (e.nthDraw cfg n).word = false := fun n hn => by
      have := Nat.find_min hex hn
      simpa [show n < fuel by omega] using this
    exact .inl ⟨Nat.find hex, hk.1, hrej, hk.2, Engine.sample_of_accepted cfg upper fuel _ e hk.1 hrej hk.2⟩
  · have hrej : ∀ n < fuel, unifAccepts upper (e.nthDraw cfg n).word = false := fun n hn => by
      by_contra hc
      exact h ⟨n, hn, by simpa using hc⟩
    exact .inr ⟨hrej, Engine.sample_of_rejected cfg upper fuel e hrej⟩

/-- An accepted draw ends the command (R153). -/
theorem State.unifDraw_accepted (s : State) (upper r : Word) (e : Engine)
    (h : s.engine.sample s.cfg upper Config.drawsPerStep = .accepted r e) :
    s.unifDraw upper =
      (({ s.setEngine e with seq := .idle }).emitAll (bytesOfWord (unifValue upper r))).complete true 5 := by
  rw [State.unifDraw, h]

/-- Only rejected draws leave it unfinished (R154). -/
theorem State.unifDraw_pending (s : State) (upper : Word) (e : Engine)
    (h : s.engine.sample s.cfg upper Config.drawsPerStep = .pending e) :
    s.unifDraw upper = ({ s.setEngine e with seq := .drawing upper }).settle true := by
  rw [State.unifDraw, h]

/-! ### What R26 says of a live context, kept by the micro-operations -/

theorem Engine.IsPermutation.of_rearranges {e e' : Engine} (h : e.IsPermutation) (hr : e.Rearranges e') :
    e'.IsPermutation := by
  obtain ⟨σ, hσ⟩ := hr
  have : e'.load = e.load ∘ σ := funext hσ
  rw [Engine.IsPermutation, this]
  exact Function.Bijective.comp h σ.bijective

theorem oddByte_add_two (w : Byte) : oddByte (w + 2) = oddByte w := by
  revert w
  decide

theorem oddByte_add_six (w : Byte) : oddByte (w + 6) = oddByte w := by
  revert w
  decide

theorem Engine.LiveOk.shuffle {e : Engine} (h : e.LiveOk) (cfg : Cfg) : (e.shuffle cfg).LiveOk :=
  ⟨h.1.of_rearranges (e.shuffle_rearranges cfg), by rw [Engine.shuffle_w, oddByte_add_six]; exact h.2.1,
    by rw [Engine.shuffle_a]; decide⟩

theorem Engine.LiveOk.shuffleIfFull {e : Engine} (h : e.LiveOk) (cfg : Cfg) : (e.shuffleIfFull cfg).LiveOk := by
  rw [Engine.shuffleIfFull]
  split
  · exact h.shuffle cfg
  · exact h

theorem Engine.count_le (a : Byte) (h : a < 0x80#8) : a + 1 ≤ 0x80#8 := by
  rw [BitVec.lt_def] at h
  rw [BitVec.le_def, BitVec.toNat_add]
  simp at h ⊢
  omega

theorem Engine.LiveOk.absorbNibble {e : Engine} (h : e.LiveOk) (cfg : Cfg) (x : BitVec 4) :
    (e.absorbNibble cfg x).LiveOk :=
  ⟨h.1.of_rearranges (e.absorbNibble_rearranges cfg x), (h.shuffleIfFull cfg).2.1,
    Engine.count_le _ (e.shuffleIfFull_a cfg h.2.2)⟩

theorem Engine.LiveOk.absorbByte {e : Engine} (h : e.LiveOk) (cfg : Cfg) (b : Byte) :
    (e.absorbByte cfg b).LiveOk := (h.absorbNibble cfg _).absorbNibble cfg _

theorem Engine.LiveOk.absorbStop {e : Engine} (h : e.LiveOk) (cfg : Cfg) : (e.absorbStop cfg).LiveOk :=
  ⟨h.1.of_rearranges (e.absorbStop_rearranges cfg), (h.shuffleIfFull cfg).2.1,
    Engine.count_le _ (e.shuffleIfFull_a cfg h.2.2)⟩

theorem Engine.LiveOk.output {e : Engine} (h : e.LiveOk) : e.output.engine.LiveOk :=
  ⟨h.1.of_rearranges e.output_rearranges, h.2.1, h.2.2⟩

theorem Engine.LiveOk.drip {e : Engine} (h : e.LiveOk) (cfg : Cfg) : (e.drip cfg).engine.LiveOk := by
  rw [Engine.drip_def]
  split
  · exact (h.shuffle cfg).output
  · exact h.output

theorem Engine.LiveOk.squeeze {e : Engine} (h : e.LiveOk) (cfg : Cfg) (n : Nat) :
    (e.squeeze cfg n).engine.LiveOk := by
  induction n generalizing e with
  | zero => exact h
  | succ n ih => exact ih (h.drip cfg)

theorem Engine.LiveOk.draw {e : Engine} (h : e.LiveOk) (cfg : Cfg) : (e.draw cfg).engine.LiveOk :=
  h.squeeze cfg 4

theorem Engine.LiveOk.afterDraws {e : Engine} (h : e.LiveOk) (cfg : Cfg) (k : Nat) :
    (e.afterDraws cfg k).LiveOk := by
  induction k generalizing e with
  | zero => exact h
  | succ k ih => exact ih (h.draw cfg)

/-- The identity S-box, entry by entry (40_primitives.md R115). -/
theorem Engine.load_initial (v : Byte) : Engine.initial.load v = v := by
  have key : ∀ n ≤ 256, ∀ x : Byte, x.toNat < n → Image.load (forUpTo n
      (fun v m => Image.store m (BitVec.ofNat 8 v) (BitVec.ofNat 8 v)) 0) x = x := by
    intro n
    induction n with
    | zero => intro _ x hx; omega
    | succ n ih =>
      intro hn x hx
      rw [forUpTo_succ, Image.load_store]
      split
      · rename_i h
        exact h.symm
      · rename_i h
        refine ih (by omega) x ?_
        have : x.toNat ≠ n := fun hh => h (by rw [← hh]; simp)
        omega
  exact key 256 (le_refl _) v v.isLt

theorem Engine.initial_liveOk : Engine.initial.LiveOk :=
  ⟨by
    have : Engine.initial.load = id := funext Engine.load_initial
    rw [Engine.IsPermutation, this]
    exact Function.bijective_id, by decide, by decide⟩

end Sys2Proof.Machine
end

