-- ==== Sys2Proof/Laws/Exec.lean ====
section
/-! SUPPORT. What executing a command can do, said once: on a locked block it discards, a context command on a
dead context faults, and otherwise the command has its own effect. -/

namespace Sys2Proof.Machine

open Sys2Proof

/-- A command's own effect, past the gates (41_setup_absorb.md to 44_timing_safe_utilities.md). -/
def effectOf (i : Instr) (s : State) : State :=
  match i with
  | .nop => s.complete false 1
  | .init => ({ s.setEngine Engine.initial with live := true }).complete false 1
  | .stop => (s.setEngine (s.engine.absorbStop s.cfg)).complete (s.ctx.a == 0x80#8) 1
  | .absb b => (s.setEngine (s.engine.absorbByte s.cfg b)).complete true 2
  | .drip => ((s.setEngine (s.engine.drip s.cfg).engine).emit (s.engine.drip s.cfg).byte).complete true 1
  | .u32 =>
    ((s.setEngine (s.engine.draw s.cfg).engine).emitAll (bytesOfWord (s.engine.draw s.cfg).word)).complete true 1
  | .sqz n =>
    ((s.setEngine (s.engine.squeeze s.cfg n.toNat).engine).emitAll
      (s.engine.squeeze s.cfg n.toNat).bytes).complete (n != 0#8) 2
  | .unif upper => if upper < 2#32 then (s.emitAll (bytesOfWord 0#32)).complete false 5 else s.unifDraw upper
  | .xorb b =>
    ((s.setEngine (s.engine.drip s.cfg).engine).emit (b ^^^ (s.engine.drip s.cfg).byte)).complete true 2
  | .final n =>
    (let t := ((s.setEngine (s.engine.finish s.cfg n).engine).emitAll (s.engine.finish s.cfg n).bytes).settle true
     if t.cfg.wipeAfterUsage then t.ctxWipe else t).advance 2
  | .cmpclr => ({ s with c := 0 }).complete false 1
  | .cmpb x y => ({ s with c := compareByte s.c x y }).complete false 3
  | .cmprd => (s.emit s.c).complete false 1
  | .wipe => s.ctxWipe.complete false 1

/-- Executing a command, whole. -/
theorem exec_eq (i : Instr) (s : State) :
    exec i s = .next
      (if s.err = 0 then
        if i.needsLive = true ∧ s.live = false then (s.faultEntry .notLive).advance i.length else effectOf i s
      else s.discard i.length) := by
  cases i <;> cases hl : s.live <;> by_cases he : s.err = 0 <;>
    simp [exec, execNop, execInit, execStop, execAbsb, execDrip, execU32, execSqz, execUnif, execXorb, execFinal,
      execCmpclr, execCmpb, execCmprd, execWipe, State.contextCommand, State.command, State.requireLive, hl, he,
      Instr.needsLive, Instr.length, effectOf]

/-- An unlocked block with the context a command needs: the command has its effect. -/
theorem exec_effect (i : Instr) (s : State) (he : s.err = 0) (hl : i.needsLive = true → s.live = true) :
    exec i s = .next (effectOf i s) := by
  rw [exec_eq, if_pos he, if_neg]
  rintro ⟨hi, hd⟩
  simp [hl hi] at hd

/-- A context command on a dead context faults (60_exceptions.md R212). -/
theorem exec_dead (i : Instr) (s : State) (he : s.err = 0) (hi : i.needsLive = true) (hd : s.live = false) :
    exec i s = .next ((s.faultEntry .notLive).advance i.length) := by
  rw [exec_eq, if_pos he, if_pos ⟨hi, hd⟩]

/-- A locked block discards (60_exceptions.md R215). -/
theorem exec_locked (i : Instr) (s : State) (he : s.err ≠ 0) : exec i s = .next (s.discard i.length) := by
  rw [exec_eq, if_neg he]

/-- All that executing a command can do. -/
theorem exec_cases (i : Instr) (s t : State) (h : exec i s = .next t) :
    (s.err ≠ 0 ∧ t = s.discard i.length) ∨
    (s.err = 0 ∧ i.needsLive = true ∧ s.live = false ∧ t = (s.faultEntry .notLive).advance i.length) ∨
    (s.err = 0 ∧ (i.needsLive = true → s.live = true) ∧ t = effectOf i s) := by
  rw [exec_eq, Host.Outcome.next.injEq] at h
  subst h
  by_cases he : s.err = 0
  · by_cases hd : i.needsLive = true ∧ s.live = false
    · exact .inr (.inl ⟨he, hd.1, hd.2, by rw [if_pos he, if_pos hd]⟩)
    · refine .inr (.inr ⟨he, fun hi => ?_, by rw [if_pos he, if_neg hd]⟩)
      by_contra hc
      exact hd ⟨hi, by simpa using hc⟩
  · exact .inl ⟨he, by rw [if_neg he]⟩

/-! ### The decoder -/

/-- All the decoder can come to, by the opcode byte (30_encoding.md R77). -/
theorem decode_cons (op : Byte) (operands : List Byte) :
    decode (op :: operands) =
      match opcodeTable.lookup op with
      | none => .illegalOpcode operands
      | some row => row.parse operands := rfl

/-- The table's rows, one by one, and no other opcode. -/
theorem opcodeTable_cases (op : Byte) :
    (opcodeTable.lookup op = none ∧ legalOpcode op = false) ∨
    (∃ i, opcodeTable.lookup op = some (.z i) ∧ op.toNat < 8 ∧ i.length = 1 ∧ encode i = [op]) ∨
    (∃ i : Byte → Instr, opcodeTable.lookup op = some (.b i) ∧ 64 ≤ op.toNat ∧ op.toNat < 68 ∧
      (∀ b, (i b).length = 2) ∧ ∀ b, encode (i b) = [op, b]) ∨
    (opcodeTable.lookup op = some (.p .cmpb) ∧ op = 0x80#8) ∨
    (opcodeTable.lookup op = some (.w .unif) ∧ op = 0xC0#8) := by
  by_cases h : legalOpcode op = true
  · have key : op.toNat < 8 ∨ (64 ≤ op.toNat ∧ op.toNat < 68) ∨ op = 0x80#8 ∨ op = 0xC0#8 := by
      simp only [legalOpcode, Bool.or_eq_true, Bool.and_eq_true, decide_eq_true_eq, beq_iff_eq,
        BitVec.le_def] at h
      rcases h with ((h | h) | h) | h
      · exact .inl (by simpa using Nat.lt_succ_of_le h)
      · exact .inr (.inl ⟨by simpa using h.1, by simpa using Nat.lt_succ_of_le h.2⟩)
      · exact .inr (.inr (.inl h))
      · exact .inr (.inr (.inr h))
    have hop : op = BitVec.ofNat 8 op.toNat := by simp
    rcases key with h8 | ⟨h64, h68⟩ | rfl | rfl
    · refine .inr (.inl ?_)
      generalize op.toNat = n at hop h8
      subst hop
      interval_cases n <;> exact ⟨_, rfl, by decide, rfl, rfl⟩
    · refine .inr (.inr (.inl ?_))
      generalize op.toNat = n at hop h64 h68
      subst hop
      interval_cases n <;> exact ⟨_, rfl, by decide, by decide, fun _ => rfl, fun _ => rfl⟩
    · exact .inr (.inr (.inr (.inl ⟨rfl, rfl⟩)))
    · exact .inr (.inr (.inr (.inr ⟨rfl, rfl⟩)))
  · refine .inl ⟨?_, by simpa using h⟩
    have all : ∀ x : Byte, legalOpcode x = true ∨ (opcodeTable.lookup x).isNone = true := by decide
    rcases all op with hl | hn
    · exact absurd hl h
    · simpa using hn

end Sys2Proof.Machine
end

