-- ==== Sys2Proof/Laws/PerInstr.lean ====
section
/-! SUPPORT. Statements made of every command as syntax, one lemma per constructor. -/

namespace Sys2Proof.Laws

open Sys2Proof

/-- A command's bytes (30_encoding.md R70 to R76): the opcode byte is one of the fourteen, its bits 7:6 announce
exactly the operand bytes that follow, and the whole is as long as `Instr.length` says; and the operands are in
their ranges. -/
def EncodedLength.Statement (i : Instr) : Prop :=
  ∃ (op : Byte) (operands : List Byte), encode i = op :: operands ∧ legalOpcode op = true ∧
    operands.length = operandCount op ∧ i.length = 1 + operandCount op ∧ wellFormedBytes (encode i) = true ∧
    i.wellFormed = true

theorem EncodedLength.nop : EncodedLength.Statement .nop := ⟨_, _, rfl, rfl, rfl, rfl, rfl, rfl⟩

theorem EncodedLength.init : EncodedLength.Statement .init := ⟨_, _, rfl, rfl, rfl, rfl, rfl, rfl⟩

theorem EncodedLength.stop : EncodedLength.Statement .stop := ⟨_, _, rfl, rfl, rfl, rfl, rfl, rfl⟩

theorem EncodedLength.drip : EncodedLength.Statement .drip := ⟨_, _, rfl, rfl, rfl, rfl, rfl, rfl⟩

theorem EncodedLength.u32 : EncodedLength.Statement .u32 := ⟨_, _, rfl, rfl, rfl, rfl, rfl, rfl⟩

theorem EncodedLength.wipe : EncodedLength.Statement .wipe := ⟨_, _, rfl, rfl, rfl, rfl, rfl, rfl⟩

theorem EncodedLength.cmpclr : EncodedLength.Statement .cmpclr := ⟨_, _, rfl, rfl, rfl, rfl, rfl, rfl⟩

theorem EncodedLength.cmprd : EncodedLength.Statement .cmprd := ⟨_, _, rfl, rfl, rfl, rfl, rfl, rfl⟩

theorem EncodedLength.absb (b : Byte) : EncodedLength.Statement (.absb b) :=
  ⟨_, _, rfl, rfl, rfl, rfl, rfl, by simpa [Instr.wellFormed] using b.isLt⟩

theorem EncodedLength.xorb (b : Byte) : EncodedLength.Statement (.xorb b) :=
  ⟨_, _, rfl, rfl, rfl, rfl, rfl, by simpa [Instr.wellFormed] using b.isLt⟩

theorem EncodedLength.sqz (n : Byte) : EncodedLength.Statement (.sqz n) :=
  ⟨_, _, rfl, rfl, rfl, rfl, rfl, by simpa [Instr.wellFormed] using n.isLt⟩

theorem EncodedLength.final (n : Byte) : EncodedLength.Statement (.final n) :=
  ⟨_, _, rfl, rfl, rfl, rfl, rfl, by simpa [Instr.wellFormed] using n.isLt⟩

theorem EncodedLength.cmpb (x y : Byte) : EncodedLength.Statement (.cmpb x y) :=
  ⟨_, _, rfl, rfl, rfl, rfl, rfl, by simpa [Instr.wellFormed] using ⟨x.isLt, y.isLt⟩⟩

theorem EncodedLength.unif (upper : Word) : EncodedLength.Statement (.unif upper) :=
  ⟨_, _, rfl, rfl, rfl, rfl, rfl, by simpa [Instr.wellFormed] using upper.isLt⟩

end Sys2Proof.Laws
end

