-- ==== Sys2Proof/Laws/Step.lean ====
section
/-! SUPPORT. What a step can do, said once: RESET, an unfinished `UNIF`, a locked block, and what the decoder
makes of the bytes that have arrived. -/

namespace Sys2Proof.Machine

open Sys2Proof

/-- All the block can do in a step while RESET is low. -/
theorem State.run_cases (s t : State) (h : s.run = .next t) :
    (∃ upper, s.seq = .drawing upper ∧ t = s.unifDraw upper) ∨
    (s.seq = .idle ∧ s.err ≠ 0 ∧ t = s.lockedStep) ∨
    (s.seq = .idle ∧ s.err = 0 ∧ decode s.pending = .incomplete ∧ t = s.hold) ∨
    (s.seq = .idle ∧ s.err = 0 ∧ ∃ rest, decode s.pending = .illegalOpcode rest ∧ t = s.illegalOpcode rest) ∨
    (s.seq = .idle ∧ s.err = 0 ∧ ∃ i rest, decode s.pending = .ok i rest ∧ exec i (s.taken rest) = .next t) := by
  rw [State.run] at h
  cases hq : s.seq with
  | drawing upper =>
    rw [hq] at h
    exact .inl ⟨upper, rfl, by cases h; rfl⟩
  | idle =>
    rw [hq] at h
    by_cases he : s.err = 0
    · simp only [he, if_true, State.decodeStep] at h
      cases hd : decode s.pending with
      | incomplete =>
        rw [hd] at h
        exact .inr (.inr (.inl ⟨rfl, he, rfl, by cases h; rfl⟩))
      | illegalOpcode rest =>
        rw [hd] at h
        exact .inr (.inr (.inr (.inl ⟨rfl, he, rest, rfl, by cases h; rfl⟩)))
      | ok i rest =>
        rw [hd] at h
        exact .inr (.inr (.inr (.inr ⟨rfl, he, i, rest, rfl, h⟩)))
    · simp only [if_neg he] at h
      exact .inr (.inl ⟨rfl, he, by cases h; rfl⟩)

/-- All a step can do. -/
theorem step_cases (s t : State) (h : step s = .next t) :
    (s.rst = .low ∧ s.run = .next t) ∨ (s.rst = .high ∧ t = s.resetNow) ∨
    (∃ k u, s.rst = .during k ∧ s.run = .next u ∧ t = State.resetWithin k s u) := by
  rw [step, State.cycle] at h
  cases hr : s.rst with
  | low => rw [hr] at h; exact .inl ⟨rfl, h⟩
  | high => rw [hr] at h; exact .inr (.inl ⟨rfl, by cases h; rfl⟩)
  | during k =>
    rw [hr] at h
    cases hu : s.run with
    | next u =>
      simp only [hu, State.cutShort] at h
      exact .inr (.inr ⟨k, u, rfl, rfl, by cases h; rfl⟩)
    | fault r => simp [hu, State.cutShort] at h
    | refused r => simp [hu, State.cutShort] at h

/-! ### The step, case by case -/

/-- A run begins with a step. -/
theorem run_step (M : Host.Core) (n : Nat) (s t : M.State) (h : M.step s = .next t) :
    M.run (n + 1) s = M.run n t := by
  rw [Host.Core.run, h]

theorem step_low (s : State) (h : s.rst = .low) : step s = s.run := by
  rw [step, State.cycle, h]

theorem step_high (s : State) (h : s.rst = .high) : step s = .next s.resetNow := by
  rw [step, State.cycle, h]

theorem step_during (s u : State) (k : Nat) (h : s.rst = .during k) (hu : s.run = .next u) :
    step s = .next (State.resetWithin k s u) := by
  rw [step, State.cycle, h]
  simp only [hu, State.cutShort]

theorem State.run_drawing (s : State) (upper : Word) (h : s.seq = .drawing upper) :
    s.run = .next (s.unifDraw upper) := by
  rw [State.run, h]

theorem State.run_locked (s : State) (hq : s.seq = .idle) (he : s.err ≠ 0) : s.run = .next s.lockedStep := by
  rw [State.run, hq]
  exact if_neg he

theorem State.run_unlocked (s : State) (hq : s.seq = .idle) (he : s.err = 0) : s.run = s.decodeStep := by
  rw [State.run, hq]
  exact if_pos he

/-- A step in which the block decodes what has arrived (30_encoding.md R77). -/
theorem step_decode (s : State) (hr : s.rst = .low) (hq : s.seq = .idle) (he : s.err = 0) :
    step s = s.decodeStep := by
  rw [step_low s hr, State.run_unlocked s hq he]

theorem State.decodeStep_ok (s : State) (i : Instr) (rest : List Byte) (h : decode s.pending = .ok i rest) :
    s.decodeStep = exec i (s.taken rest) := by
  rw [State.decodeStep, h]

theorem State.decodeStep_illegal (s : State) (rest : List Byte) (h : decode s.pending = .illegalOpcode rest) :
    s.decodeStep = .next (s.illegalOpcode rest) := by
  rw [State.decodeStep, h]

theorem State.decodeStep_incomplete (s : State) (h : decode s.pending = .incomplete) :
    s.decodeStep = .next s.hold := by
  rw [State.decodeStep, h]

/-- What a locked block's step leaves. -/
theorem State.lockedStep_cases (s : State) :
    (s.cmd = [] ∧ s.lockedStep = s) ∨
    ∃ b rest, s.cmd = b :: rest ∧ s.lockedStep = { s with cmd := rest, pc := s.pc + 1 } := by
  rw [State.lockedStep]
  cases hc : s.cmd with
  | nil => exact .inl ⟨rfl, rfl⟩
  | cons b rest => exact .inr ⟨b, rest, rfl, rfl⟩

/-- What `UNIF`'s loop leaves of the state outside the context, the latches, `pc` and `out`. -/
theorem State.unifDraw_cases (s : State) (upper : Word) :
    (∃ k < Config.drawsPerStep, (∀ n < k, unifAccepts upper (s.engine.nthDraw s.cfg n).word = false) ∧
      unifAccepts upper (s.engine.nthDraw s.cfg k).word = true ∧
      s.unifDraw upper = (({ s.setEngine (s.engine.nthDraw s.cfg k).engine with seq := .idle }).emitAll
        (bytesOfWord (unifValue upper (s.engine.nthDraw s.cfg k).word))).complete true 5) ∨
    ((∀ n < Config.drawsPerStep, unifAccepts upper (s.engine.nthDraw s.cfg n).word = false) ∧
      s.unifDraw upper = ({ s.setEngine (s.engine.afterDraws s.cfg Config.drawsPerStep) with
        seq := .drawing upper }).settle true) := by
  rcases Engine.sample_cases s.cfg upper Config.drawsPerStep s.engine with ⟨k, hk, hr, ha, hs⟩ | ⟨hr, hs⟩
  · exact .inl ⟨k, hk, hr, ha, s.unifDraw_accepted upper _ _ hs⟩
  · exact .inr ⟨hr, s.unifDraw_pending upper _ hs⟩

end Sys2Proof.Machine
end

