-- ==== Sys2Proof/Tests/Slice0.lean ====
section
/-! SUPPORT. The model's own tests, each about one step or one function; every expected value comes from the
spec (30_encoding.md R70 to R76 for encodings, 95_test_vectors.md for values; each theorem names its vector).
The witnesses, which show a state and operands that meet the hypotheses of each statement, stand at the end. -/

namespace Sys2Proof.Tests

-- one theorem at a time: many kernel evaluations at once would want more threads than memory allows
set_option Elab.async false

open Sys2Proof Sys2Proof.Machine

/-! ### States to start from -/

/-- "From reset" with a configuration (95_test_vectors.md). -/
def deadState (cfg : Cfg) : State := State.resetWith cfg

/-- "From INIT" (95_test_vectors.md). -/
def liveState (cfg : Cfg) : State := { State.resetWith cfg with ctx := Engine.initial.toCtx, live := true }

/-- The engine "after SETUP "ABC"", from the listing V-A2. -/
def abcEngine : Engine :=
  let listed : List (Byte × Byte) :=
    [(0, 129), (1, 132), (2, 130), (3, 1), (4, 131), (5, 3), (129, 0), (130, 2), (131, 4), (132, 5)]
  { listed.foldl (fun e cell => e.store cell.1 cell.2) Engine.initial with a := 6 }

/-- "After SETUP "ABC"" (V-A2). -/
def abcState (cfg : Cfg) : State := { liveState cfg with ctx := abcEngine.toCtx }

/-- After an illegal opcode. -/
def lockedState (cfg : Cfg) : State := { State.resetWith cfg with err := 1 }

/-- A live context whose S-box is zero but for one entry: no permutation, so no run reaches it, but its first 64
draws are 0 and the 65th is not. -/
def sparseState : State :=
  { State.resetWith .bare with ctx := { Ctx.zero with s := [(1, 1)], w := 1 }, live := true }

/-- What is asked of the state a command or a step leaves. -/
def leaves {α : Type} (r : Result) (f : State → α) : Option α :=
  match r with
  | .next s => some (f s)
  | .fault _ => none
  | .refused _ => none

theorem of_leaves {α : Type} {r : Result} {f : State → α} {a : α} (h : leaves r f = some a) :
    ∃ t, r = .next t ∧ f t = a := by
  cases r with
  | next s => exact ⟨s, rfl, by simpa [leaves] using h⟩
  | fault e => cases h
  | refused e => cases h

/-! ### Decoding, each word written out from the encoding tables of 30_encoding.md -/

theorem test_decode_nop : decode [0b00000000#8] = .ok .nop [] := by decide
theorem test_decode_init : decode [0b00000001#8] = .ok .init [] := by decide
theorem test_decode_stop : decode [0b00000010#8] = .ok .stop [] := by decide
theorem test_decode_drip : decode [0b00000011#8] = .ok .drip [] := by decide
theorem test_decode_u32 : decode [0b00000100#8] = .ok .u32 [] := by decide
theorem test_decode_wipe : decode [0b00000101#8] = .ok .wipe [] := by decide
theorem test_decode_cmpclr : decode [0b00000110#8] = .ok .cmpclr [] := by decide
theorem test_decode_cmprd : decode [0b00000111#8] = .ok .cmprd [] := by decide
theorem test_decode_absb : decode [0b01000000#8, 0b11000000#8] = .ok (.absb 0xC0#8) [] := by decide
theorem test_decode_xorb : decode [0b01000001#8, 0b01001000#8] = .ok (.xorb 0x48#8) [] := by decide
theorem test_decode_sqz : decode [0b01000010#8, 0b00001000#8] = .ok (.sqz 8#8) [] := by decide
theorem test_decode_final : decode [0b01000011#8, 0b00100000#8] = .ok (.final 32#8) [] := by decide
theorem test_decode_cmpb :
    decode [0b10000000#8, 0b00000011#8, 0b00000100#8] = .ok (.cmpb 0x03#8 0x04#8) [] := by decide

/-- V-K7, row 1000000: the operand bytes `00 0f 42 40`, the most significant first. -/
theorem test_decode_unif :
    decode [0b11000000#8, 0b00000000#8, 0b00001111#8, 0b01000010#8, 0b01000000#8] =
      .ok (.unif 1000000#32) [] := by decide

/-- R78: the two ends of each illegal range; nothing after the opcode is looked at. -/
theorem test_decode_illegal :
    ([0x08#8, 0x3F#8, 0x44#8, 0x7F#8, 0x81#8, 0xBF#8, 0xC1#8, 0xFF#8].map fun op =>
      decode [op, 0x01#8]) = List.replicate 8 (.illegalOpcode [0x01#8]) := by decide

/-- R79: every proper part of a `UNIF` is awaited. -/
theorem test_decode_partial :
    ([[], [0xC0#8], [0xC0#8, 1#8], [0xC0#8, 1#8, 2#8], [0xC0#8, 1#8, 2#8, 3#8]].map decode) =
      List.replicate 5 .incomplete := by decide

/-- The numbering of spec/opcode_table.json: the first byte is bits 7 to 0, operand bytes count on. -/
theorem test_decode_table_word :
    decodeTableWord 24 0x040380 = some (.cmpb 0x03#8 0x04#8) ∧
    decodeTableWord 40 0x40420F00C0 = some (.unif 1000000#32) ∧
    decodeTableWord 8 0x42 = some (.sqz 0#8) ∧ decodeTableWord 8 0x08 = none := by decide

/-- A command placed by `withFetchWord` is the first one executed after reset. -/
theorem test_fetch_word :
    leaves (step (State.reset.withFetchWord 8 0x01)) (·.live) = some true ∧
    leaves (step (State.reset.withFetchWord 24 0x040380)) (·.c) = some 0x07#8 ∧
    leaves (step (State.reset.withFetchWord 8 0x03)) (·.err) = some 2#8 ∧
    leaves (step (State.reset.withFetchWord 8 0xFF)) (·.err) = some 1#8 := by
  refine ⟨?_, ?_, ?_, ?_⟩
  · rw [step_decode _ rfl rfl rfl, State.decodeStep_ok _ .init [] (by decide), exec_effect _ _ rfl (by decide)]
    simp [leaves, effectOf]
  · rw [step_decode _ rfl rfl rfl, State.decodeStep_ok _ (.cmpb 3 4) [] (by decide),
      exec_effect _ _ rfl (by decide)]
    simp only [leaves, effectOf, State.complete_c]
    decide
  · rw [step_decode _ rfl rfl rfl, State.decodeStep_ok _ .drip [] (by decide), exec_dead _ _ rfl rfl rfl]
    rfl
  · rw [step_decode _ rfl rfl rfl, State.decodeStep_illegal _ [] (by decide)]
    rfl

/-! ### What WellFormed.lean refuses, one ill-formed term for each check -/

theorem test_refuse_empty : wellFormedBytes [] = false := by decide
theorem test_refuse_illegal_opcode : wellFormedBytes [0x08#8] = false := by decide
theorem test_refuse_missing_operand : wellFormedBytes [0x40#8] = false := by decide
theorem test_refuse_extra_operand : wellFormedBytes [0x00#8, 0x00#8] = false := by decide
theorem test_refuse_byte : Source.wellFormed (.absb 256) = false := by decide
theorem test_refuse_count : Source.wellFormed (.hfinal 256) = false := by decide
theorem test_refuse_pair : Source.wellFormed (.cmpb 0 256) = false := by decide
theorem test_refuse_bound : Source.wellFormed (.randu 4294967296) = false := by decide
theorem test_refuse_key : Source.wellFormed (.setup (List.replicate 256 0)) = false := by decide +kernel
theorem test_refuse_nonce : Source.wellFormed (.setupiv [] (List.replicate 256 0)) = false := by decide +kernel
theorem test_refuse_hash_length : Source.wellFormed (.hash 256 []) = false := by decide
theorem test_refuse_mac_length : Source.wellFormed (.mac 256 [] []) = false := by decide
theorem test_refuse_lengths : Source.wellFormed (.compare [1] [1, 2]) = false := by decide

theorem test_refuse_long_buffer (buf : List Byte) (h : buf.length = 65536) :
    Source.wellFormed (.absorb buf) = false ∧ Source.wellFormed (.msetup buf) = false ∧
      Source.wellFormed (.crypt buf) = false ∧ Source.wellFormed (.compare buf buf) = false := by
  simp [Source.wellFormed, h]

/-- A legal command string and lines of the longest length are accepted. -/
theorem test_accept : wellFormedBytes [0x80#8, 0x01#8, 0x02#8] = true ∧
    Source.wellFormed (.setup (List.replicate 255 0)) = true ∧ Source.wellFormed (.absb 255) = true ∧
    Source.wellFormed (.unif 4294967295) = true := by decide +kernel

/-! ### The assembler (30_encoding.md R80) -/

/-- P1's source gives P1's first eight bytes. -/
theorem test_assemble_setup :
    assembleText ["SETUP \"ABC\" ; INIT; ABSB".toList, "DRIP".toList] =
      some [0x01, 0x40, 0x41, 0x40, 0x42, 0x40, 0x43, 0x03] := by decide

/-- V-A9's second stream. -/
theorem test_assemble_setupiv :
    assembleText ["SETUPIV \"key\", \"iv\"".toList, "SQZ 5".toList] =
      some [0x01, 0x40, 0x6b, 0x40, 0x65, 0x40, 0x79, 0x02, 0x40, 0x69, 0x40, 0x76, 0x42, 0x05] := by decide

/-- R80's operand forms, and V-C2's stream. -/
theorem test_assemble_operands :
    assembleText ["ABSB 'A'".toList, "ABSORB x\"00ff\"".toList, "UNIF 0xFFFFFFFF".toList] =
      some [0x40, 0x41, 0x40, 0x00, 0x40, 0xff, 0xC0, 0xff, 0xff, 0xff, 0xff] ∧
    assembleText ["COMPARE [1, 2, 3], [1, 2, 4]".toList] =
      some [0x06, 0x80, 1, 1, 0x80, 2, 2, 0x80, 3, 4, 0x07] ∧
    assembleText ["ABSB 256".toList] = none := by decide

/-! ### The micro-operations -/

/-- V-P7, row by row. -/
theorem test_crush_pair :
    ([(0, 0), (5, 5), (200, 10), (10, 200), (255, 0), (0, 255), (128, 127), (127, 128)].map
      fun pair : Byte × Byte => (crushMask pair.1 pair.2, maskSelect (crushMask pair.1 pair.2) pair.1 pair.2,
        maskSelect (crushMask pair.1 pair.2) pair.2 pair.1)) =
    [(0x00, 0, 0), (0x00, 5, 5), (0xFF, 10, 200), (0x00, 10, 200), (0xFF, 0, 255), (0x00, 0, 255),
      (0xFF, 127, 128), (0x00, 127, 128)] := by decide

/-- V-P1, updates 2 and 5: the swap of update 5 finds the 2 that update 2 put in `s[5]`. -/
theorem test_update :
    (let e := Engine.update^[5] Engine.initial
     (e.i, e.j, e.k, e.load 2, e.load 5, e.load 135, e.z, e.a, e.w)) =
      (5, 135, 223, 5, 135, 2, 0, 0, 1) := by decide +kernel

/-- V-P3: `w` wraps from 255 to 1. -/
theorem test_whip_wraps : ({ Engine.initial with w := 255 }.whip 0).w = 1 := by decide +kernel

/-- V-P4: `whip(512)`, its registers and the first entries of its S-box. -/
theorem test_whip :
    (let e := Engine.initial.whip 512
     (e.i, e.j, e.k, e.w, e.load 0, e.load 1, e.load 255)) = (0, 243, 200, 3, 0xd6, 0x0d, 0x3a) := by
  decide +kernel

/-! ### The commands -/

/-- V-A11. -/
theorem test_nop : leaves (exec .nop (deadState .paranoid)) id = some { deadState .paranoid with pc := 1 } := by
  decide +kernel

/-- R132's example, and V-A10: `INIT` overwrites a live context. -/
theorem test_init :
    leaves (exec .init (abcState .bare)) (fun s => (s.ctx, s.live, s.pc, s.out)) =
      some ((liveState .bare).ctx, true, 1, []) := by decide +kernel

/-- V-A3, first row: the second swap finds what the first one wrote. -/
theorem test_absb :
    leaves (exec (.absb 0x00) (liveState .wipeAfter)) (fun s =>
      (s.engine.load 0, s.engine.load 1, s.engine.load 128, s.ctx.a, s.out)) =
      some (128, 0, 1, 2, []) := by decide +kernel

/-- V-A1: the low nibble comes first. -/
theorem test_absb_low_nibble_first :
    leaves (exec (.absb 0x41) (liveState .paranoid)) (fun s =>
      (s.engine.load 0, s.engine.load 1, s.engine.load 129, s.engine.load 132, s.t0, s.t1)) =
      some (129, 132, 0, 1, 0, 0) := by decide +kernel

/-- V-A4. -/
theorem test_stop :
    leaves (exec .stop (liveState .safeTiming)) (fun s => s.ctx) =
      some { (liveState .safeTiming).ctx with a := 1 } := by decide +kernel

/-- V-K1, the first byte. -/
theorem test_drip :
    leaves (exec .drip (liveState .bare)) (fun s => (s.out, s.ctx.i, s.ctx.j, s.ctx.k, s.ctx.z, s.pc)) =
      some ([0x04], 1, 1, 2, 4, 1) := by decide +kernel

/-- V-K2: with absorbed input the drip shuffles first, here with the masked `crush`. -/
theorem test_drip_shuffles :
    leaves (exec .drip (abcState .paranoid)) (fun s =>
      (s.out, s.ctx.i, s.ctx.j, s.ctx.k, s.ctx.w)) =
      some ([0x77], 7, 14, 166, 7) := by decide +kernel

/-- V-K1 as one `SQZ 8`: eight drips and the end registers. -/
theorem test_sqz :
    leaves (exec (.sqz 8) (liveState .bare)) (fun s => (s.out, s.ctx.i, s.ctx.j, s.ctx.k, s.ctx.z)) =
      some ([0x04, 0x14, 0x45, 0xce, 0x39, 0xfc, 0xe3, 0xdf], 8, 232, 12, 223) := by decide +kernel

/-- V-K4: `SQZ 0` changes nothing, although `a > 0`. -/
theorem test_sqz_zero :
    leaves (exec (.sqz 0) (abcState .bare)) id = some { abcState .bare with pc := 2 } := by decide +kernel

/-- V-K1's first four bytes, as one `U32`. -/
theorem test_u32 :
    leaves (exec .u32 (liveState .bare)) (fun s => (s.out, s.pc)) = some ([0x04, 0x14, 0x45, 0xce], 1) := by
  decide +kernel

/-- By hand from V-K1 and R153: for `upper = 0xFB000000`, `min = 0x05000000`; the draw `0x041445ce` is rejected,
`0x39fce3df` is accepted. -/
theorem test_unif_rejects :
    leaves (exec (.unif 0xFB000000#32) (liveState .bare)) (fun s => (s.out, s.ctx.i, s.seq, s.pc)) =
      some ([0x39, 0xfc, 0xe3, 0xdf], 8, .idle, 5) := by decide +kernel

/-- V-K6: a bound below 2 emits zeros and touches nothing. -/
theorem test_unif_small :
    leaves (exec (.unif 1#32) (abcState .paranoid)) id =
      some { abcState .paranoid with out := [0, 0, 0, 0], pc := 5 } := by decide +kernel

/-- By hand from V-K1 and R155: `0x48 ^ 0x04`. -/
theorem test_xorb :
    leaves (exec (.xorb 0x48) (liveState .bare)) (fun s => (s.out, s.ctx.z, s.pc)) = some ([0x4C], 4, 2) := by
  decide +kernel

/-- V-H1, n = 1, under `WIPE_AFTER_USAGE`: one byte and the wiped state. -/
theorem test_final_wipes :
    leaves (exec (.final 1) (abcState .wipeAfter)) (fun s => (s.out, s.ctx, s.live, s.t0, s.t1, s.pc)) =
      some ([0x0a], Ctx.zero, false, 0, 0, 2) := by decide +kernel

/-- V-H4, n = 0, without the wipe: `a` grows by 3 and nothing is emitted. -/
theorem test_final_zero :
    leaves (exec (.final 0) (liveState .safeTiming)) (fun s => (s.out, s.ctx.a, s.ctx.w, s.live)) =
      some ([], 3, 1, true) := by decide +kernel

/-- R191's example. -/
theorem test_cmpclr :
    leaves (exec .cmpclr { deadState .bare with c := 0xFF }) (fun s => (s.c, s.pc)) = some (0, 1) := by
  decide +kernel

/-- R192's examples. -/
theorem test_cmpb :
    leaves (exec (.cmpb 0x03 0x04) (deadState .bare)) (fun s => (s.c, s.pc)) = some (0x07, 3) ∧
    leaves (exec (.cmpb 0x03 0x03) { deadState .bare with c := 0xFF }) (·.c) = some 0xFF := by decide +kernel

/-- V-C5: `CMPRD` leaves `c`. -/
theorem test_cmprd :
    leaves (exec .cmprd { deadState .bare with c := 0x02 }) (fun s => (s.out, s.c)) = some ([0x02], 0x02) := by
  decide +kernel

/-- V-C8 and V-C7: everything zero, `c` kept. -/
theorem test_wipe :
    leaves (exec .wipe { abcState .safeTiming with c := 3, t0 := 9 }) (fun s => (s.ctx, s.live, s.t0, s.c)) =
      some (Ctx.zero, false, 0, 3) := by decide +kernel

/-! ### Faults, the locked state, reset -/

/-- V-F6: the operand bytes are awaited before the liveness check. -/
theorem test_not_live :
    leaves (step { deadState .bare with cmd := [0xC0, 0, 0, 0, 0] }) (fun s => (s.err, s.pc, s.out, s.cmd)) =
      some (2, 5, [], []) := by decide +kernel

/-- V-F7: `ff` faults at once and leaves the next byte in the stream. -/
theorem test_illegal_opcode :
    leaves (step { abcState .bare with cmd := [0xFF, 0x01], c := 7 }) (fun s =>
      (s.err, s.pc, s.ctx, s.c, s.cmd)) = some (1, 1, Ctx.zero, 7, [0x01]) := by decide +kernel

/-- V-F2's last byte: a locked block discards it. -/
theorem test_locked :
    leaves (step { lockedState .bare with cmd := [0x03] }) (fun s => (s.pc, s.cmd, s.err, s.out)) =
      some (1, [], 1, []) := by decide +kernel

/-- V-F9: the assembler holds `40` and waits. -/
theorem test_partial_command :
    leaves (step { liveState .bare with cmd := [0x40] }) (fun s => (s.asm, s.pc, s.live)) =
      some ([0x40], 0, true) := by decide +kernel

/-- V-F11. -/
theorem test_status :
    (deadState .safeTimingWipe).status = 0x30 ∧ (liveState .safeTimingWipe).status = 0x31 ∧
    { deadState .safeTimingWipe with err := 2 }.status = 0x3A ∧
    { deadState .safeTimingWipe with err := 1 }.status = 0x36 := by decide +kernel

/-- R242: a reset inside a `U32` after two of its bytes. -/
theorem test_reset_within :
    leaves (step ({ liveState .bare with cmd := [0x04] }.assertResetDuring 2)) (fun s => (s.out, s.ctx, s.live)) =
      some ([0x04, 0x14], Ctx.zero, false) := by decide +kernel

/-! ### Witnesses: states and operands that meet the hypotheses of each statement, clause by clause

A statement of Certificates/Slice0/Obligations.lean without hypotheses has none. -/

theorem liveState_engine (cfg : Cfg) : (liveState cfg).engine = Engine.initial := Engine.toEngine_toCtx _

theorem liveState_liveOk (cfg : Cfg) : (liveState cfg).engine.LiveOk := by
  rw [liveState_engine]
  exact Engine.initial_liveOk

theorem liveState_wf (cfg : Cfg) : Memory.wf (liveState cfg).ctx.s = true := Engine.toCtx_wf _

/-- A live machine, with bytes to take and perhaps an unfinished `UNIF`, meets the invariant. -/
theorem liveState_inv (cfg : Cfg) (cmd : List Byte) (seq : Sequencer)
    (h : ∀ upper, seq = .drawing upper → ¬ upper < 2#32) :
    State.Inv { liveState cfg with cmd := cmd, seq := seq } where
  memory := liveState_wf cfg
  alive := fun _ => liveState_liveOk cfg
  dead := fun hd => absurd hd (by simp [liveState])
  cause := Or.inl rfl
  locked := fun he => absurd rfl he
  latches := fun _ => ⟨rfl, rfl⟩
  drawing := fun upper hu => ⟨rfl, rfl, h upper hu⟩
  partialCommand := rfl

theorem witness_ResetInputResetsEverything :
    (abcState .bare).assertReset.rst = .high ∧ (lockedState .bare).assertReset.rst = .high := ⟨rfl, rfl⟩

/-- R242 with no byte out, two bytes out, and all four. -/
theorem witness_ResetCutsACommandShort :
    ∀ k ∈ [0, 2, 4], ({ liveState .bare with cmd := [0x04#8] }.assertResetDuring k).rst = .during k ∧
      leaves ({ liveState .bare with cmd := [0x04#8] }.assertResetDuring k).run (·.out) =
        some ((liveState .bare).out ++ [0x04, 0x14, 0x45, 0xce]) := by decide +kernel

theorem witness_StepKeepsTheInvariant :
    (State.Inv { liveState .paranoid with cmd := [0x03#8], seq := .idle } ∧
      leaves (step { liveState .paranoid with cmd := [0x03#8], seq := .idle }) (·.pc) = some 1) ∧
    (State.Inv { liveState .bare with cmd := [], seq := .drawing 10#32 } ∧
      leaves (step { liveState .bare with cmd := [], seq := .drawing 10#32 }) (·.pc) = some 5) :=
  ⟨⟨liveState_inv .paranoid _ _ nofun, by decide +kernel⟩,
    liveState_inv .bare _ _ (by intro upper h; cases h; decide), by decide +kernel⟩

theorem witness_LiveContextInvariants :
    (liveState .bare).engine.LiveOk ∧ leaves (exec .drip (liveState .bare)) (·.live) = some true :=
  ⟨liveState_liveOk .bare, by decide +kernel⟩

theorem witness_EncodeInvertsDecode :
    decode [0x80#8, 0x03#8, 0x04#8, 0x00#8] = .ok (.cmpb 0x03#8 0x04#8) [0x00#8] := by decide

/-- Each length, at the most operands that do not complete it and the fewest that do. -/
theorem witness_LengthByTopTwoBits :
    (legalOpcode 0x07 = true ∧ 0 ≤ ([] : List Byte).length) ∧
    (legalOpcode 0x40 = true ∧ ([] : List Byte).length < 1 ∧ 1 ≤ [0xC0#8].length) ∧
    (legalOpcode 0x80 = true ∧ [1#8].length < 2 ∧ 2 ≤ [1#8, 2#8].length) ∧
    (legalOpcode 0xC0 = true ∧ [1#8, 2#8, 3#8].length < 4 ∧ 4 ≤ [1#8, 2#8, 3#8, 4#8].length) ∧
    decode [0x43#8, 0x20#8, 0x03#8] = .ok (.final 0x20#8) [0x03#8] := by decide

/-- The ends of the illegal ranges and of the legal ones, and a state that meets the rest. -/
theorem witness_OtherOpcodesFaultAtOnce :
    (∀ op ∈ [0x08#8, 0x3F#8, 0x44#8, 0x7F#8, 0x81#8, 0xBF#8, 0xC1#8, 0xFF#8],
      (0x08#8 ≤ op ∧ op ≤ 0x3F#8) ∨ (0x44#8 ≤ op ∧ op ≤ 0x7F#8) ∨ (0x81#8 ≤ op ∧ op ≤ 0xBF#8) ∨ 0xC1#8 ≤ op) ∧
    (∀ op ∈ [0x00#8, 0x07#8, 0x40#8, 0x43#8, 0x80#8, 0xC0#8], ¬ ((0x08#8 ≤ op ∧ op ≤ 0x3F#8) ∨
      (0x44#8 ≤ op ∧ op ≤ 0x7F#8) ∨ (0x81#8 ≤ op ∧ op ≤ 0xBF#8) ∨ 0xC1#8 ≤ op)) ∧
    (let s := { liveState .bare with cmd := [0xFF#8, 0x01#8] }
     s.rst = .low ∧ s.seq = .idle ∧ s.err = 0 ∧ s.asm = [] ∧ s.cmd = 0xFF#8 :: [0x01#8]) ∧
    4 ≤ [1#8, 2#8, 3#8, 4#8].length := by decide

/-- The bytes may stand in the assembler and in the stream. -/
theorem witness_StepRunsTheDecodedCommand :
    let s := { liveState .bare with asm := [0x40#8], cmd := [0xC0#8, 0x03#8] }
    s.rst = .low ∧ s.seq = .idle ∧ s.err = 0 ∧ decode (s.asm ++ s.cmd) = .ok (.absb 0xC0#8) [0x03#8] := by decide

theorem witness_PartialCommandWaits :
    let s := { liveState .bare with asm := [0xC0#8], cmd := [0x01#8, 0x02#8, 0x03#8] }
    s.rst = .low ∧ s.seq = .idle ∧ s.err = 0 ∧ decode (s.asm ++ s.cmd) = .incomplete ∧ s.asm ++ s.cmd ≠ [] := by
  decide

theorem witness_BytesMayArriveInPieces :
    let s := { liveState .bare with cmd := [0x80#8, 0x01#8] }
    s.rst = .low ∧ s.seq = .idle ∧ s.err = 0 ∧ decode (s.asm ++ s.cmd) = .incomplete ∧
      leaves (step s) (·.pc) = some 0 := by decide +kernel

/-- Whether some of `fuel` draws is accepted. -/
def accepts (cfg : Cfg) (upper : Word) (fuel : Nat) (e : Engine) : Bool :=
  match e.sample cfg upper fuel with
  | .accepted _ _ => true
  | .pending _ => false

theorem all_rejected (cfg : Cfg) (upper : Word) (fuel : Nat) (e : Engine) (h : accepts cfg upper fuel e = false) :
    ∀ n < fuel, (e.nthDraw cfg n).word.toNat < unifMin upper := by
  rcases Engine.sample_cases cfg upper fuel e with ⟨k, -, -, -, hs⟩ | ⟨hr, -⟩
  · rw [accepts, hs] at h
    cases h
  · exact fun n hn => by simpa [unifAccepts] using hr n hn

/-- `UNIF` completes on a fresh context and not, within a step, on the sparse one. -/
theorem witness_PcAdvancesByTheLength :
    ((liveState .bare).seq = .idle ∧
      leaves (exec (.unif 10#32) (liveState .bare)) (·.seq) = some .idle) ∧
    (sparseState.seq = .idle ∧ leaves (exec (.unif 3#32) sparseState) (·.seq) = some (.drawing 3#32)) := by
  decide +kernel

theorem witness_ResponseCountsAreFixed :
    ((liveState .bare).err = 0 ∧ (liveState .bare).seq = .idle ∧
      leaves (exec .u32 (liveState .bare)) (fun t => (t.seq, t.err)) = some (.idle, 0)) ∧
    ((deadState .bare).err = 0 ∧ (deadState .bare).seq = .idle ∧
      leaves (exec .u32 (deadState .bare)) (fun t => (t.seq, t.err)) = some (.idle, 2)) := by decide +kernel

theorem witness_ResponseStreamOnlyGrows : ∃ t, step { liveState .bare with cmd := [0x03#8] } = .next t ∧ t.pc = 1 :=
  of_leaves (by decide +kernel)

theorem witness_DeadContextFaults :
    (∀ i ∈ [Instr.stop, .drip, .u32, .absb 0, .xorb 0, .sqz 0, .final 0, .unif 0], i.needsLive = true) ∧
      (deadState .paranoid).live = false ∧ (deadState .paranoid).err = 0 := by decide

/-- A step that does not fault, one that takes each fault. -/
theorem witness_ExactlyTwoFaults :
    (let s := { liveState .bare with cmd := [0x03#8] }
     s.rst = .low ∧ s.seq = .idle ∧ s.err = 0 ∧ leaves (step s) (·.err) = some 0) ∧
    (let s := { liveState .bare with cmd := [0x08#8] }
     s.rst = .low ∧ s.seq = .idle ∧ s.err = 0 ∧ leaves (step s) (·.err) = some 1) ∧
    (let s := { deadState .bare with cmd := [0x03#8] }
     s.rst = .low ∧ s.seq = .idle ∧ s.err = 0 ∧ leaves (step s) (·.err) = some 2) := by decide +kernel

theorem witness_LockedBlockDiscards :
    (let s := { lockedState .bare with cmd := [0x01#8] }
     s.err ≠ 0 ∧ s.rst = .low ∧ s.seq = .idle ∧ s.cmd = 0x01#8 :: [] ∧ leaves (step s) (·.pc) = some 1) ∧
    (lockedState .bare).err ≠ 0 ∧ (lockedState .bare).cmd = [] := by decide +kernel

theorem witness_OnlyResetClearsErr :
    leaves (step (lockedState .bare).assertReset) (·.err) = some 0 ∧ (lockedState .bare).err ≠ 0 ∧
      leaves (exec .init (lockedState .bare)) (·.err) = some 1 := by decide +kernel

theorem witness_LiveFollowsTheLifecycle :
    ((liveState .wipeAfter).err = 0 ∧ leaves (exec (.final 0) (liveState .wipeAfter)) (·.live) = some false) ∧
    (deadState .bare).err = 0 ∧ leaves (exec .init (deadState .bare)) (·.live) = some true := by decide +kernel

/-- For the statements about `NOP`, `CMPCLR`, `CMPB`, `CMPRD` and, with a live context, for `SQZ 0` and a small
`UNIF`: an unlocked block with clear latches, under PARANOID and not, live and dead. -/
theorem witness_clear_latches (cfg : Cfg) :
    ((deadState cfg).err = 0 ∧ (deadState cfg).LatchesClear) ∧
    (liveState cfg).err = 0 ∧ (liveState cfg).live = true ∧ (liveState cfg).LatchesClear :=
  ⟨⟨rfl, fun _ => ⟨rfl, rfl⟩⟩, rfl, rfl, fun _ => ⟨rfl, rfl⟩⟩

theorem witness_NopOnlyAdvancesPc : (liveState .paranoid).err = 0 ∧ (liveState .paranoid).LatchesClear :=
  ⟨rfl, fun _ => ⟨rfl, rfl⟩⟩

theorem witness_CmpclrClearsTheAccumulator : (deadState .paranoid).err = 0 ∧ (deadState .paranoid).LatchesClear :=
  ⟨rfl, fun _ => ⟨rfl, rfl⟩⟩

theorem witness_CmpbAccumulatesDifferences :
    let s := { deadState .paranoid with c := 0xF0 }
    s.err = 0 ∧ s.LatchesClear ∧ s.c.getLsbD 7 = true := ⟨rfl, fun _ => ⟨rfl, rfl⟩, rfl⟩

theorem witness_CmprdEmitsTheAccumulator : (deadState .bare).err = 0 ∧ (deadState .bare).LatchesClear :=
  ⟨rfl, fun _ => ⟨rfl, rfl⟩⟩

theorem witness_InitCreatesTheContext : (deadState .bare).err = 0 ∧ (abcState .bare).err = 0 := ⟨rfl, rfl⟩

theorem witness_WipeZeroesTheContext :
    (deadState .bare).err = 0 ∧ (abcState .bare).err = 0 ∧
      leaves (exec .drip (abcState .bare).ctxWipe) (·.err) = some 2 := ⟨rfl, rfl, by decide +kernel⟩

/-- For `AbsbAbsorbsTwoNibbles`, `StopCountsOneStep`, `DripEmitsOneByte`, `SqzIsConsecutiveDrips`,
`U32EmitsFourDrips`, `XorbEmitsTheXor`, `FinalEmitsTheDigest`: an unlocked block with a live canonical context,
and one with a dead context. -/
theorem witness_context_command (cfg : Cfg) :
    ((liveState cfg).err = 0 ∧ (liveState cfg).live = true ∧ Memory.wf (liveState cfg).ctx.s = true) ∧
    (deadState cfg).err = 0 ∧ (deadState cfg).live = false := ⟨⟨rfl, rfl, liveState_wf cfg⟩, rfl, rfl⟩

theorem witness_AbsbAbsorbsTwoNibbles :
    ((liveState .bare).err = 0 ∧ (liveState .bare).live = true) ∧
    (deadState .bare).err = 0 ∧ (deadState .bare).live = false := ⟨⟨rfl, rfl⟩, rfl, rfl⟩

theorem witness_DripEmitsOneByte :
    ((abcState .bare).err = 0 ∧ (abcState .bare).live = true) ∧
    (deadState .bare).err = 0 ∧ (deadState .bare).live = false := ⟨⟨rfl, rfl⟩, rfl, rfl⟩

theorem witness_U32EmitsFourDrips :
    ((abcState .safeTiming).err = 0 ∧ (abcState .safeTiming).live = true) ∧
    (deadState .bare).err = 0 ∧ (deadState .bare).live = false := ⟨⟨rfl, rfl⟩, rfl, rfl⟩

theorem witness_XorbEmitsTheXor :
    ((abcState .paranoid).err = 0 ∧ (abcState .paranoid).live = true) ∧
    (deadState .bare).err = 0 ∧ (deadState .bare).live = false := ⟨⟨rfl, rfl⟩, rfl, rfl⟩

/-- `a = 126`, the last value with room for two steps, and `a = 0`. -/
theorem witness_AbsbStoresOnlyInTheAbsorbRegion :
    let s := { liveState .bare with ctx := { (liveState .bare).ctx with a := 126 } }
    (s.err = 0 ∧ s.live = true ∧ Memory.wf s.ctx.s = true ∧ s.ctx.a ≤ 126#8) ∧ (liveState .bare).ctx.a ≤ 126#8 ∧
    (5#8 ≠ s.ctx.a ∧ 5#8 ≠ s.ctx.a + 1 ∧ 5#8 ≠ nibbleAddr (lowNibble 0x41) ∧ 5#8 ≠ nibbleAddr (highNibble 0x41)) :=
  by decide +kernel

/-- `a = 128`, `a = 127` and `a = 0`. -/
theorem witness_StopCountsOneStep :
    (let s := { liveState .bare with ctx := { (liveState .bare).ctx with a := 128 } }
     s.err = 0 ∧ s.live = true ∧ s.ctx.a = 0x80#8) ∧
    (let s := { liveState .bare with ctx := { (liveState .bare).ctx with a := 127 } }
     s.err = 0 ∧ s.live = true ∧ s.ctx.a ≠ 0x80#8 ∧ Memory.wf s.ctx.s = true) ∧
    (deadState .bare).err = 0 ∧ (deadState .bare).live = false :=
  by decide +kernel

theorem witness_StrideStaysOdd : Engine.initial.w.getLsbD 0 = true := rfl

/-- The outermost pair and the innermost, of a permutation. -/
theorem witness_CrushSortsEveryPair :
    Function.Bijective Engine.initial.load ∧ (0#8 ≤ 127#8) ∧ (127#8 ≤ 127#8) :=
  ⟨Engine.initial_liveOk.1, by decide, by decide⟩

theorem witness_MaskedCrushEqualsPlainCrush : (127#8 : Byte) ≠ 128#8 := by decide

/-- `a = 127` and `a = 128`, and an entry that stays. -/
theorem witness_AbsorbNibbleSwapsAndCounts :
    ({ Engine.initial with a := 127 }.a ≠ 0x80#8 ∧ (5#8 : Byte) ≠ 127#8 ∧
      (5#8 : Byte) ≠ 128#8 + (15#4).setWidth 8) ∧ { Engine.initial with a := 128 }.a = 0x80#8 := by decide

theorem witness_SwapExchangesTwoEntries : (7#8 : Byte) ≠ 2#8 ∧ (7#8 : Byte) ≠ 5#8 := by decide

/-- The first update of R102's example has `i = j`, the second exchanges entries 2 and 5. -/
theorem witness_UpdateMixesOnce :
    (let e := Engine.initial
     e.i + e.w = e.k + e.load (e.j + e.load (e.i + e.w))) ∧
    (let e := Engine.initial.update
     (7#8 : Byte) ≠ e.i + e.w ∧ (7#8 : Byte) ≠ e.k + e.load (e.j + e.load (e.i + e.w))) := by decide +kernel

theorem witness_DripShufflesAbsorbedInput : abcEngine.a ≠ 0 ∧ Engine.initial.a = 0 := ⟨by decide, rfl⟩

theorem witness_MicroOperationsKeepThePermutation : Function.Bijective Engine.initial.load := Engine.initial_liveOk.1

theorem witness_AbsorbCountStaysBounded :
    Engine.initial.a ≤ 0x80#8 ∧ { Engine.initial with a := 128 }.a ≤ 0x80#8 ∧ (1 : Nat) ≤ 1 := by decide

theorem witness_DripWithNothingAbsorbedSwapsOnce :
    (liveState .bare).err = 0 ∧ (liveState .bare).live = true ∧ Memory.wf (liveState .bare).ctx.s = true ∧
      (liveState .bare).ctx.a = 0 := ⟨rfl, rfl, liveState_wf .bare, rfl⟩

theorem witness_SqzIsConsecutiveDrips :
    ((liveState .paranoid).err = 0 ∧ (liveState .paranoid).live = true ∧
      Memory.wf (liveState .paranoid).ctx.s = true ∧ (liveState .paranoid).LatchesClear) ∧
    (deadState .bare).err = 0 ∧ (deadState .bare).live = false :=
  ⟨⟨rfl, rfl, liveState_wf .paranoid, fun _ => ⟨rfl, rfl⟩⟩, rfl, rfl⟩

/-- The bounds 0 and 1; a first draw that is accepted; a second, and the last of a step, after rejected ones; a
dead context. -/
theorem witness_UnifEmitsTheFirstAcceptedDraw :
    ((0#32).toNat < 2 ∧ (1#32).toNat < 2 ∧ (liveState .bare).err = 0 ∧ (liveState .bare).live = true) ∧
    (2 ≤ (2#32).toNat ∧ (liveState .bare).seq = .idle ∧ 0 < Config.drawsPerStep ∧
      (2 ^ 32 - (2#32).toNat) % (2#32).toNat ≤ ((liveState .bare).engine.nthDraw .bare 0).word.toNat) ∧
    ((∀ n < 1, ((liveState .bare).engine.nthDraw .bare n).word.toNat <
        (2 ^ 32 - (0xFB000000#32).toNat) % (0xFB000000#32).toNat) ∧
      (2 ^ 32 - (0xFB000000#32).toNat) % (0xFB000000#32).toNat ≤
        ((liveState .bare).engine.nthDraw .bare 1).word.toNat) ∧
    (deadState .bare).err = 0 ∧ (deadState .bare).live = false := by decide +kernel

/-- As `sparseState`, but draw 63, the last of a step, is the first that is not 0. -/
theorem witness_UnifEmitsTheFirstAcceptedDraw_last :
    let e := { sparseState.engine with s := Image.ofCells [(0, 1)] }
    63 < Config.drawsPerStep ∧ (∀ n < 63, (e.nthDraw .bare n).word.toNat < (2 ^ 32 - (3#32).toNat) % (3#32).toNat) ∧
      (2 ^ 32 - (3#32).toNat) % (3#32).toNat ≤ (e.nthDraw .bare 63).word.toNat :=
  ⟨by decide, all_rejected .bare 3#32 63 _ (by decide +kernel), by decide +kernel⟩

theorem witness_UnifResultIsBelowTheBound :
    (liveState .bare).err = 0 ∧ (liveState .bare).live = true ∧ (liveState .bare).seq = .idle ∧
      leaves (exec (.unif 0#32) (liveState .bare)) (·.seq) = some .idle ∧
      leaves (exec (.unif 1#32) (liveState .bare)) (·.seq) = some .idle ∧
      leaves (exec (.unif 2#32) (liveState .bare)) (·.seq) = some .idle ∧
      leaves (exec (.unif 0xFFFFFFFF#32) (liveState .bare)) (·.seq) = some .idle := by decide +kernel

theorem witness_UnifBoundLeavesAMultiple :
    2 ≤ (2#32).toNat ∧ 2 ≤ (0xFFFFFFFF#32).toNat ∧ 2 ^ 31 < (0x80000001#32).toNat ∧
      (0x80000000#32).toNat ∣ 2 ^ 32 := by decide

/-- An unfinished `UNIF` that goes on drawing, and one that completes. -/
theorem witness_UnfinishedUnifOnlyDraws :
    (let s := { sparseState with seq := .drawing 3#32 }
     s.rst = .low ∧ s.seq = .drawing 3#32 ∧ leaves (step s) (·.seq) = some (.drawing 3#32)) ∧
    (let s := { liveState .bare with seq := .drawing 10#32 }
     s.rst = .low ∧ s.seq = .drawing 10#32 ∧ leaves (step s) (·.seq) = some .idle) := by decide +kernel

/-- Draw 64 is the first that is accepted: the command takes two steps. -/
theorem witness_UnifCompletesWhenADrawIsAccepted :
    let s := { sparseState with cmd := [0xC0#8, 0#8, 0#8, 0#8, 3#8] }
    s.rst = .low ∧ s.seq = .idle ∧ s.err = 0 ∧ s.live = true ∧ decode (s.asm ++ s.cmd) = .ok (.unif 3#32) [] ∧
      2 ≤ (3#32).toNat ∧ (∀ n < 64, (s.engine.nthDraw s.cfg n).word.toNat < unifMin 3#32) ∧
      unifMin 3#32 ≤ (s.engine.nthDraw s.cfg 64).word.toNat :=
  ⟨rfl, rfl, rfl, rfl, by decide, by decide, all_rejected .bare 3#32 64 _ (by decide +kernel), by decide +kernel⟩

/-- Two runs, of different builds, from the same context. -/
theorem witness_XorbIsAnInvolution :
    (abcState .bare).err = 0 ∧ (abcState .bare).live = true ∧ (abcState .paranoid).err = 0 ∧
      (abcState .paranoid).live = true ∧ (abcState .paranoid).ctx = (abcState .bare).ctx :=
  ⟨rfl, rfl, rfl, rfl, rfl⟩

theorem witness_FinalEmitsTheDigest :
    ((abcState .wipeAfter).err = 0 ∧ (abcState .wipeAfter).live = true ∧
      (abcState .wipeAfter).cfg.wipeAfterUsage = true) ∧
    ((abcState .bare).err = 0 ∧ (abcState .bare).live = true ∧ (abcState .bare).cfg.wipeAfterUsage = false) ∧
    (deadState .bare).err = 0 ∧ (deadState .bare).live = false := ⟨⟨rfl, rfl, rfl⟩, ⟨rfl, rfl, rfl⟩, rfl, rfl⟩

theorem witness_CompareIsZeroExactlyOnEqualBuffers :
    ([] : List Byte).length = ([] : List Byte).length ∧
      ([1#8, 2#8, 3#8] : List Byte).length = ([1#8, 2#8, 4#8] : List Byte).length ∧
      (deadState .bare).err = 0 := ⟨rfl, rfl, rfl⟩

/-- A context command with a live context, and another command on a dead one. -/
theorem witness_CommandsKeepWhatTheyDoNotWrite :
    ((liveState .bare).err = 0 ∧ (liveState .bare).live = true ∧
      leaves (exec .drip (liveState .bare)) (·.pc) = some 1) ∧
    (deadState .bare).err = 0 ∧ Instr.needsLive .cmprd = false ∧
      leaves (exec .cmprd (deadState .bare)) (·.pc) = some 1 := by decide +kernel

/-- Builds that differ in a toggle other than `WIPE_AFTER_USAGE`, and builds that differ in it. -/
theorem witness_OnlyWipeAfterUsageChangesValues :
    ((abcState .wipeAfter).SameToTheHost { abcState .paranoid with t0 := 0 } ∧
      (abcState .wipeAfter).cfg.wipeAfterUsage = (abcState .paranoid).cfg.wipeAfterUsage) ∧
    (abcState .bare).SameToTheHost { abcState .wipeAfter with t0 := 9, fresh := 4 } :=
  ⟨⟨⟨rfl, rfl, rfl, rfl, rfl, rfl, rfl, rfl, rfl, rfl⟩, rfl⟩, rfl, rfl, rfl, rfl, rfl, rfl, rfl, rfl, rfl, rfl⟩

end Sys2Proof.Tests
end

section
/-! Two builds beside each other (00_scope.md R8, 44_timing_safe_utilities.md R196): what the host can see of
a machine (`State.hostView`), that every operation of the machine acts on that view, and hence that no toggle
but `WIPE_AFTER_USAGE`, which only `FINAL` reads, reaches it. -/

namespace Sys2Proof.Machine

open Sys2Proof

/-! ### What the host sees of a machine -/

/-- The machine with all that `State.SameToTheHost` leaves out, the configuration, the latches and the count of
free values, brought to one fixed choice. -/
def State.hostView (s : State) : State := { s with cfg := .bare, t0 := 0, t1 := 0, fresh := 0 }

theorem State.sameToTheHost_iff (s t : State) : s.SameToTheHost t ↔ t.hostView = s.hostView := by
  simp [State.SameToTheHost, State.hostView]

/-- How the latches settle is not to be seen (10_state.md R33). -/
theorem State.hostView_settle (s : State) (used : Bool) : (s.settle used).hostView = s.hostView := by
  obtain ⟨-, h⟩ | ⟨-, -, h⟩ | ⟨-, -, h⟩ := s.settle_cases used <;> rw [h] <;> rfl

theorem State.hostView_lockedStep (s : State) : s.lockedStep.hostView = s.hostView.lockedStep := by
  obtain ⟨hc, h⟩ | ⟨b, rest, hc, h⟩ := s.lockedStep_cases
  · rw [h, State.lockedStep, show s.hostView.cmd = [] from hc]
  · rw [h, State.lockedStep, show s.hostView.cmd = b :: rest from hc]
    rfl

theorem Engine.finish_eq (cfg cfg' : Cfg) (e : Engine) (n : Byte) : e.finish cfg n = e.finish cfg' n := by
  rw [Engine.finish, Engine.finish, Engine.absorbStop_eq cfg cfg', Engine.absorbByte_eq cfg cfg',
    Engine.squeeze_eq cfg cfg']

/-- `FINAL` emits the digest, and a wipe after it takes nothing back (43_hash_mac.md R170). -/
theorem effectOf_final_out (n : Byte) (s : State) :
    (effectOf (.final n) s).out = s.out ++ (s.engine.finish s.cfg n).bytes := by
  simp only [effectOf, State.advance_out]
  split <;> simp

theorem effectOf_final_err (n : Byte) (s : State) : (effectOf (.final n) s).err = s.err := by
  simp only [effectOf, State.advance_err]
  split <;> simp

/-! ### No operation writes the configuration (10_state.md R32) -/

@[simp] theorem State.unifDraw_cfg (s : State) (upper : Word) : (s.unifDraw upper).cfg = s.cfg := by
  obtain ⟨k, -, -, -, h⟩ | ⟨-, h⟩ := s.unifDraw_cases upper <;> rw [h] <;> simp

theorem effectOf_cfg (i : Instr) (s : State) : (effectOf i s).cfg = s.cfg := by
  cases i with
  | unif upper => rw [effectOf]; split <;> simp
  | final n => simp only [effectOf, State.advance_cfg]; split <;> simp
  | _ => simp [effectOf]

theorem exec_cfg (i : Instr) (s t : State) (h : exec i s = .next t) : t.cfg = s.cfg := by
  obtain ⟨-, rfl⟩ | ⟨-, -, -, rfl⟩ | ⟨-, -, rfl⟩ := exec_cases i s t h
  · rfl
  · rfl
  · exact effectOf_cfg i s

theorem State.run_cfg (s t : State) (h : s.run = .next t) : t.cfg = s.cfg := by
  obtain ⟨upper, -, rfl⟩ | ⟨-, -, rfl⟩ | ⟨-, -, -, rfl⟩ | ⟨-, -, rest, -, rfl⟩ | ⟨-, -, i, rest, -, hx⟩ :=
    s.run_cases t h
  · exact s.unifDraw_cfg upper
  · obtain ⟨-, h⟩ | ⟨b, rest, -, h⟩ := s.lockedStep_cases <;> rw [h]
  · rfl
  · rfl
  · exact exec_cfg i (s.taken rest) t hx

theorem step_cfg (s t : State) (h : step s = .next t) : t.cfg = s.cfg := by
  obtain ⟨-, hu⟩ | ⟨-, rfl⟩ | ⟨k, u, -, hu, rfl⟩ := step_cases s t h
  · exact s.run_cfg t hu
  · rfl
  · exact s.run_cfg u hu

/-! ### Two machines the host cannot tell apart -/

/-- Two outcomes are next states, and those are related by `R`. -/
def BothNext (R : State → State → Prop) (r r' : Result) : Prop :=
  ∃ s' t', r = .next s' ∧ r' = .next t' ∧ R s' t'

/-- The response stream and the fault cause are the same. -/
def State.SameResponse (s t : State) : Prop := t.out = s.out ∧ t.err = s.err

section
variable {s t : State} (h : s.SameToTheHost t)
include h

theorem State.SameToTheHost.hostView_eq : t.hostView = s.hostView := (s.sameToTheHost_iff t).mp h

theorem State.SameToTheHost.engine_eq : t.engine = s.engine := by
  obtain ⟨hctx, -⟩ := h
  rw [State.engine_def, State.engine_def, hctx]

/-- What acts on the host's view keeps it the same. -/
theorem State.SameToTheHost.map (f : State → State) (hf : ∀ u, (f u).hostView = f u.hostView) :
    (f s).SameToTheHost (f t) := by
  rw [State.sameToTheHost_iff, hf, hf, h.hostView_eq]

theorem State.SameToTheHost.setEngine_same (e : Engine) : (s.setEngine e).SameToTheHost (t.setEngine e) :=
  h.map (·.setEngine e) fun _ => rfl

theorem State.SameToTheHost.emit_same (b : Byte) : (s.emit b).SameToTheHost (t.emit b) :=
  h.map (·.emit b) fun _ => rfl

theorem State.SameToTheHost.emitAll_same (bs : List Byte) : (s.emitAll bs).SameToTheHost (t.emitAll bs) :=
  h.map (·.emitAll bs) fun _ => rfl

theorem State.SameToTheHost.advance_same (n : Nat) : (s.advance n).SameToTheHost (t.advance n) :=
  h.map (·.advance n) fun _ => rfl

theorem State.SameToTheHost.ctxWipe_same : s.ctxWipe.SameToTheHost t.ctxWipe := h.map State.ctxWipe fun _ => rfl

theorem State.SameToTheHost.settle_same (used used' : Bool) : (s.settle used).SameToTheHost (t.settle used') := by
  rw [State.sameToTheHost_iff, State.hostView_settle, State.hostView_settle, h.hostView_eq]

theorem State.SameToTheHost.complete_same (used used' : Bool) (n : Nat) :
    (s.complete used n).SameToTheHost (t.complete used' n) := (h.settle_same used used').advance_same n

theorem State.SameToTheHost.sameResponse : s.SameResponse t := by
  obtain ⟨-, -, herr, -, -, -, -, hout, -, -⟩ := h
  exact ⟨hout, herr⟩

/-! ### A command in two builds -/

/-- `UNIF` draws the same words in every build. -/
theorem State.SameToTheHost.unifDraw_same (upper : Word) : (s.unifDraw upper).SameToTheHost (t.unifDraw upper) := by
  have hs : t.engine.sample t.cfg upper Config.drawsPerStep = s.engine.sample s.cfg upper Config.drawsPerStep := by
    rw [h.engine_eq, Engine.sample_eq t.cfg s.cfg]
  cases hd : s.engine.sample s.cfg upper Config.drawsPerStep with
  | accepted r e =>
    rw [s.unifDraw_accepted upper r e hd, t.unifDraw_accepted upper r e (hs.trans hd)]
    exact ((h.map (fun u => { u.setEngine e with seq := .idle }) fun _ => rfl).emitAll_same _).complete_same _ _ 5
  | pending e =>
    rw [s.unifDraw_pending upper e hd, t.unifDraw_pending upper e (hs.trans hd)]
    exact (h.map (fun u => { u.setEngine e with seq := .drawing upper }) fun _ => rfl).settle_same _ _

/-- A command's own effect is the same in every build, but for `FINAL` and `WIPE_AFTER_USAGE` (R8, R170). -/
theorem State.SameToTheHost.effectOf_same (i : Instr)
    (hfinal : (∃ n, i = .final n) → s.cfg.wipeAfterUsage = t.cfg.wipeAfterUsage) :
    (effectOf i s).SameToTheHost (effectOf i t) := by
  have he := h.engine_eq
  cases i with
  | nop => exact h.complete_same _ _ 1
  | init =>
    exact (h.map (fun u => { u.setEngine Engine.initial with live := true }) fun _ => rfl).complete_same _ _ 1
  | stop =>
    simp only [effectOf, he, Engine.absorbStop_eq t.cfg s.cfg]
    exact (h.setEngine_same _).complete_same _ _ 1
  | absb b =>
    simp only [effectOf, he, Engine.absorbByte_eq t.cfg s.cfg]
    exact (h.setEngine_same _).complete_same _ _ 2
  | drip =>
    simp only [effectOf, he, Engine.drip_eq t.cfg s.cfg]
    exact ((h.setEngine_same _).emit_same _).complete_same _ _ 1
  | u32 =>
    simp only [effectOf, he, Engine.draw_eq t.cfg s.cfg]
    exact ((h.setEngine_same _).emitAll_same _).complete_same _ _ 1
  | sqz n =>
    simp only [effectOf, he, Engine.squeeze_eq t.cfg s.cfg]
    exact ((h.setEngine_same _).emitAll_same _).complete_same _ _ 2
  | xorb b =>
    simp only [effectOf, he, Engine.drip_eq t.cfg s.cfg]
    exact ((h.setEngine_same _).emit_same _).complete_same _ _ 2
  | unif upper =>
    simp only [effectOf]
    split
    · exact (h.emitAll_same _).complete_same _ _ 5
    · exact h.unifDraw_same upper
  | final n =>
    have hend := ((h.setEngine_same (s.engine.finish s.cfg n).engine).emitAll_same
      (s.engine.finish s.cfg n).bytes).settle_same true true
    simp only [effectOf, he, Engine.finish_eq t.cfg s.cfg, State.settle_cfg, State.emitAll_cfg,
      State.setEngine_cfg, hfinal ⟨n, rfl⟩]
    split
    · exact hend.ctxWipe_same.advance_same 2
    · exact hend.advance_same 2
  | cmpclr => exact (h.map (fun u => { u with c := 0 }) fun _ => rfl).complete_same _ _ 1
  | cmpb x y => exact (h.map (fun u => { u with c := compareByte u.c x y }) fun _ => rfl).complete_same _ _ 3
  | cmprd => exact (h.map (fun u => u.emit u.c) fun _ => rfl).complete_same _ _ 1
  | wipe => exact h.ctxWipe_same.complete_same _ _ 1

/-- `WIPE_AFTER_USAGE` changes neither the digest `FINAL` emits nor `err` (R170). -/
theorem State.SameToTheHost.effectOf_final_sameResponse (n : Byte) :
    (effectOf (.final n) s).SameResponse (effectOf (.final n) t) := by
  obtain ⟨hout, herr⟩ := h.sameResponse
  refine ⟨?_, ?_⟩
  · rw [effectOf_final_out, effectOf_final_out, hout, h.engine_eq, Engine.finish_eq t.cfg s.cfg]
  · rw [effectOf_final_err, effectOf_final_err, herr]

/-- Both machines pass a command's gates alike (41_setup_absorb.md R130): the same without its effect, or each
with its effect. -/
theorem State.SameToTheHost.exec_gates (i : Instr) :
    BothNext State.SameToTheHost (exec i s) (exec i t) ∨
      (exec i s = .next (effectOf i s) ∧ exec i t = .next (effectOf i t)) := by
  have ⟨_, hlive, herr, _⟩ := h
  by_cases he : s.err = 0
  · by_cases hd : i.needsLive = true ∧ s.live = false
    · obtain ⟨hi, hl⟩ := hd
      exact .inl ⟨_, _, exec_dead i s he hi hl, exec_dead i t (herr.trans he) hi (hlive.trans hl),
        h.map (fun u => (u.faultEntry .notLive).advance i.length) fun _ => rfl⟩
    · have hl : i.needsLive = true → s.live = true := fun hi => by simpa [hi] using hd
      exact .inr ⟨exec_effect i s he hl, exec_effect i t (herr.trans he) fun hi => hlive.trans (hl hi)⟩
  · exact .inl ⟨_, _, exec_locked i s he, exec_locked i t (herr ▸ he),
      h.map (·.discard i.length) fun _ => rfl⟩

theorem State.SameToTheHost.exec_same (hw : s.cfg.wipeAfterUsage = t.cfg.wipeAfterUsage) (i : Instr) :
    BothNext State.SameToTheHost (exec i s) (exec i t) := by
  obtain hsame | ⟨hs, ht⟩ := h.exec_gates i
  · exact hsame
  · exact ⟨_, _, hs, ht, h.effectOf_same i fun _ => hw⟩

/-- No toggle at all changes a command's response or its fault (R8, R196). -/
theorem State.SameToTheHost.exec_sameResponse (i : Instr) :
    BothNext State.SameResponse (exec i s) (exec i t) := by
  obtain hsame | ⟨hs, ht⟩ := h.exec_gates i
  · obtain ⟨s', t', hs, ht, h'⟩ := hsame
    exact ⟨s', t', hs, ht, h'.sameResponse⟩
  · by_cases hfinal : ∃ n, i = .final n
    · obtain ⟨n, rfl⟩ := hfinal
      exact ⟨_, _, hs, ht, h.effectOf_final_sameResponse n⟩
    · exact ⟨_, _, hs, ht, (h.effectOf_same i fun hn => absurd hn hfinal).sameResponse⟩

/-! ### A step in two builds -/

/-- The assembler decodes the same command in both machines (30_encoding.md R77). -/
theorem State.SameToTheHost.decodeStep_same (hw : s.cfg.wipeAfterUsage = t.cfg.wipeAfterUsage) :
    BothNext State.SameToTheHost s.decodeStep t.decodeStep := by
  have hp : t.pending = s.pending := by
    obtain ⟨-, -, -, -, hasm, -, -, -, hcmd, -⟩ := h
    rw [State.pending, State.pending, hasm, hcmd]
  cases hd : decode s.pending with
  | ok i rest =>
    rw [s.decodeStep_ok i rest hd, t.decodeStep_ok i rest (hp ▸ hd)]
    exact (h.map (State.taken rest) fun _ => rfl).exec_same hw i
  | illegalOpcode rest =>
    exact ⟨_, _, s.decodeStep_illegal rest hd, t.decodeStep_illegal rest (hp ▸ hd),
      h.map (State.illegalOpcode rest) fun _ => rfl⟩
  | incomplete =>
    exact ⟨_, _, s.decodeStep_incomplete hd, t.decodeStep_incomplete (hp ▸ hd), h.map State.hold fun _ => rfl⟩

theorem State.SameToTheHost.run_same (hw : s.cfg.wipeAfterUsage = t.cfg.wipeAfterUsage) :
    BothNext State.SameToTheHost s.run t.run := by
  have ⟨_, _, herr, _, _, hseq, _⟩ := h
  cases hq : s.seq with
  | drawing upper =>
    exact ⟨_, _, s.run_drawing upper hq, t.run_drawing upper (hseq.trans hq), h.unifDraw_same upper⟩
  | idle =>
    by_cases he : s.err = 0
    · rw [s.run_unlocked hq he, t.run_unlocked (hseq.trans hq) (herr.trans he)]
      exact h.decodeStep_same hw
    · exact ⟨_, _, s.run_locked hq he, t.run_locked (hseq.trans hq) (herr ▸ he),
        h.map State.lockedStep State.hostView_lockedStep⟩

/-- RESET inside a command cuts the same bytes off in both machines (70_reset_and_hazards.md R242). -/
theorem State.SameToTheHost.resetWithin_same (k : Nat) {s' t' : State} (h' : s'.SameToTheHost t') :
    (State.resetWithin k s s').SameToTheHost (State.resetWithin k t t') := by
  obtain ⟨hout, -⟩ := h.sameResponse
  obtain ⟨-, -, -, -, -, -, -, hout', hcmd', -⟩ := h'
  simp [State.SameToTheHost, State.resetWithin, hout, hout', hcmd']

theorem State.SameToTheHost.step_same (hw : s.cfg.wipeAfterUsage = t.cfg.wipeAfterUsage) :
    BothNext State.SameToTheHost (step s) (step t) := by
  have ⟨_, _, _, _, _, _, _, _, _, hrst⟩ := h
  have hrun := h.run_same hw
  cases hr : s.rst with
  | low => rwa [step_low s hr, step_low t (hrst.trans hr)]
  | high =>
    exact ⟨_, _, step_high s hr, step_high t (hrst.trans hr), h.map State.resetNow fun _ => rfl⟩
  | during k =>
    obtain ⟨s', t', hs, ht, h'⟩ := hrun
    exact ⟨_, _, step_during s s' k hr hs, step_during t t' k (hrst.trans hr) ht, h.resetWithin_same k h'⟩

end

/-- Settles O59: the step acts on the host's view alone, and of the toggles only `WIPE_AFTER_USAGE` reaches it, at
the end of `FINAL`, when the digest is out. -/
theorem onlyWipeAfterUsageChangesValues : Obligations.OnlyWipeAfterUsageChangesValues := by
  refine ⟨fun s t h hw => ?_, fun i s t h => h.exec_sameResponse i⟩
  obtain ⟨s', t', hs, ht, h'⟩ := h.step_same hw
  exact ⟨s', t', hs, ht, h', by rw [step_cfg s s' hs, step_cfg t t' ht, hw]⟩

end Sys2Proof.Machine
end

section
/-! The state's rules (10_state.md): the reset state, STATUS, what each command leaves of `live`, of `pc` and of
the rest of the state, and that every step keeps the machine's invariant. Each is read off the effect of a command
(`effectOf`); its two branching cases, `UNIF` and `FINAL`, are taken apart once. -/

namespace Sys2Proof.Machine

open Sys2Proof

/-! ### What the two branching commands can leave -/

theorem Engine.LiveOk.finish {e : Engine} (h : e.LiveOk) (cfg : Cfg) (n : Byte) : (e.finish cfg n).engine.LiveOk :=
  ((h.absorbStop cfg).absorbByte cfg n).squeeze cfg n.toNat

/-- `FINAL` ends like any context command, or with a wipe, as the build has it (43_hash_mac.md R170). -/
theorem effectOf_final_cases (n : Byte) (s : State) :
    (s.cfg.wipeAfterUsage = false ∧ effectOf (.final n) s =
      ((s.setEngine (s.engine.finish s.cfg n).engine).emitAll (s.engine.finish s.cfg n).bytes).complete true 2) ∨
    (s.cfg.wipeAfterUsage = true ∧ effectOf (.final n) s =
      (((s.setEngine (s.engine.finish s.cfg n).engine).emitAll
        (s.engine.finish s.cfg n).bytes).settle true).ctxWipe.advance 2) := by
  cases hw : s.cfg.wipeAfterUsage
  · exact .inl ⟨rfl, by simp [effectOf, State.complete, hw]⟩
  · exact .inr ⟨rfl, by simp [effectOf, hw]⟩

/-- `UNIF`'s loop leaves an engine some draws on, with the command ended or with it unfinished (42_keystream_crypt.md
R153, R154). -/
theorem State.unifDraw_ends_or_draws (s : State) (upper : Word) :
    ∃ e : Engine, (s.engine.LiveOk → e.LiveOk) ∧
      ((∃ bs, s.unifDraw upper = (({ s.setEngine e with seq := .idle }).emitAll bs).complete true 5) ∨
        s.unifDraw upper = ({ s.setEngine e with seq := .drawing upper }).settle true) := by
  obtain ⟨k, -, -, -, h⟩ | ⟨-, h⟩ := s.unifDraw_cases upper
  · exact ⟨_, fun hok => (hok.afterDraws s.cfg k).draw s.cfg, .inl ⟨_, h⟩⟩
  · exact ⟨_, fun hok => hok.afterDraws s.cfg _, .inr h⟩

theorem State.unifDraw_latches (s : State) (upper : Word) : (s.unifDraw upper).LatchesClear := by
  obtain ⟨e, -, ⟨bs, h⟩ | h⟩ := s.unifDraw_ends_or_draws upper <;> rw [h]
  · exact State.complete_latches _ _ _
  · exact State.settle_latches _ _

theorem State.unifDraw_keepsPorts (s : State) (upper : Word) : s.KeepsPorts (s.unifDraw upper) := by
  obtain ⟨e, -, ⟨bs, h⟩ | h⟩ := s.unifDraw_ends_or_draws upper <;> rw [h] <;> simp [State.KeepsPorts]

@[simp] theorem State.unifDraw_live (s : State) (upper : Word) : (s.unifDraw upper).live = s.live := by
  obtain ⟨e, -, ⟨bs, h⟩ | h⟩ := s.unifDraw_ends_or_draws upper <;> rw [h] <;> simp

@[simp] theorem State.unifDraw_c (s : State) (upper : Word) : (s.unifDraw upper).c = s.c := by
  obtain ⟨e, -, ⟨bs, h⟩ | h⟩ := s.unifDraw_ends_or_draws upper <;> rw [h] <;> simp

/-- The loop ends the command and counts it in `pc`, or it goes on drawing below the same bound, `pc` as it was
(log entry 7). -/
theorem State.unifDraw_seq_pc (s : State) (upper : Word) :
    ((s.unifDraw upper).seq = .idle ∧ (s.unifDraw upper).pc = s.pc + 5) ∨
    ((s.unifDraw upper).seq = .drawing upper ∧ (s.unifDraw upper).pc = s.pc) := by
  obtain ⟨e, -, ⟨bs, h⟩ | h⟩ := s.unifDraw_ends_or_draws upper <;> rw [h] <;> simp

/-! ### What a command's own effect leaves of the state (10_state.md R40) -/

theorem effectOf_latches (i : Instr) (s : State) : (effectOf i s).LatchesClear := by
  cases i with
  | unif upper =>
    rw [effectOf]
    split
    · exact State.complete_latches _ _ _
    · exact s.unifDraw_latches upper
  | final n =>
    obtain ⟨-, h⟩ | ⟨-, h⟩ := effectOf_final_cases n s <;> rw [h]
    · exact State.complete_latches _ _ _
    · exact fun _ => ⟨rfl, rfl⟩
  | _ => exact State.complete_latches _ _ _

theorem effectOf_keepsPorts (i : Instr) (s : State) : s.KeepsPorts (effectOf i s) := by
  cases i with
  | unif upper =>
    rw [effectOf]
    split
    · simp [State.KeepsPorts]
    · exact s.unifDraw_keepsPorts upper
  | final n => obtain ⟨-, h⟩ | ⟨-, h⟩ := effectOf_final_cases n s <;> rw [h] <;> simp [State.KeepsPorts]
  | _ => simp [State.KeepsPorts, effectOf]

theorem effectOf_final_live (n : Byte) (s : State) :
    (effectOf (.final n) s).live = (s.live && !s.cfg.wipeAfterUsage) := by
  obtain ⟨hw, h⟩ | ⟨hw, h⟩ := effectOf_final_cases n s <;> rw [h] <;> simp [hw]

theorem effectOf_live (i : Instr) (s : State) (hinit : i ≠ .init) (hwipe : i ≠ .wipe)
    (hfinal : ∀ n, i ≠ .final n) : (effectOf i s).live = s.live := by
  cases i with
  | init => exact absurd rfl hinit
  | wipe => exact absurd rfl hwipe
  | final n => exact absurd rfl (hfinal n)
  | unif upper => rw [effectOf]; split <;> simp
  | _ => simp [effectOf]

theorem effectOf_c (i : Instr) (s : State) (hclr : i ≠ .cmpclr) (hcmpb : ∀ x y, i ≠ .cmpb x y) :
    (effectOf i s).c = s.c := by
  cases i with
  | cmpclr => exact absurd rfl hclr
  | cmpb x y => exact absurd rfl (hcmpb x y)
  | final n => obtain ⟨-, h⟩ | ⟨-, h⟩ := effectOf_final_cases n s <;> rw [h] <;> simp
  | unif upper => rw [effectOf]; split <;> simp
  | _ => simp [effectOf]

theorem effectOf_seq (i : Instr) (s : State) (hunif : ∀ upper, i ≠ .unif upper) : (effectOf i s).seq = s.seq := by
  cases i with
  | unif upper => exact absurd rfl (hunif upper)
  | final n => obtain ⟨-, h⟩ | ⟨-, h⟩ := effectOf_final_cases n s <;> rw [h] <;> simp
  | _ => simp [effectOf]

/-- From an idle sequencer only a `UNIF` of bound at least 2 can be left unfinished (R153, R154). -/
theorem effectOf_drawing (i : Instr) (s : State) (upper : Word) (hq : s.seq = .idle)
    (h : (effectOf i s).seq = .drawing upper) : i = .unif upper ∧ ¬ upper < 2#32 := by
  by_cases hu : ∃ bound, i = .unif bound
  · obtain ⟨bound, rfl⟩ := hu
    rw [effectOf] at h
    split at h
    · simp [hq] at h
    · rename_i hb
      obtain ⟨hi, -⟩ | ⟨hd, -⟩ := s.unifDraw_seq_pc bound
      · simp [hi] at h
      · obtain rfl : bound = upper := by simpa [hd] using h
        exact ⟨rfl, hb⟩
  · rw [effectOf_seq i s fun bound hi => hu ⟨bound, hi⟩, hq] at h
    simp at h

/-- A command that completes has advanced `pc` by its length; a `UNIF` still drawing has not moved it. -/
theorem effectOf_pc (i : Instr) (s : State) (hq : s.seq = .idle) :
    ((effectOf i s).seq = .idle ∧ (effectOf i s).pc = s.pc + i.length) ∨
    ((effectOf i s).seq ≠ .idle ∧ (effectOf i s).pc = s.pc ∧ ∃ upper, i = .unif upper) := by
  cases i with
  | unif upper =>
    rw [effectOf]
    split
    · exact .inl ⟨by simpa using hq, by simp [Instr.length]⟩
    · obtain ⟨hi, hpc⟩ | ⟨hd, hpc⟩ := s.unifDraw_seq_pc upper
      · exact .inl ⟨hi, hpc⟩
      · exact .inr ⟨by simp [hd], hpc, upper, rfl⟩
  | final n =>
    refine .inl ⟨(effectOf_seq (.final n) s fun _ => nofun).trans hq, ?_⟩
    obtain ⟨-, h⟩ | ⟨-, h⟩ := effectOf_final_cases n s <;> rw [h] <;> simp [Instr.length]
  | _ => exact .inl ⟨by simpa [effectOf] using hq, by simp [effectOf, Instr.length]⟩

/-! ### What happens to the context (10_state.md R26, R28) -/

/-- All that can become of the context: it is left alone, wiped, or live with what an engine that is as R26 says
leaves. -/
inductive ContextStep (s t : State) : Prop where
  | kept (hctx : t.ctx = s.ctx) (hlive : t.live = s.live)
  | wiped (hctx : t.ctx = Ctx.zero) (hlive : t.live = false)
  | worked (e : Engine) (hok : e.LiveOk) (hctx : t.ctx = e.toCtx) (hlive : t.live = true)

theorem ContextStep.alive {s t : State} (h : ContextStep s t) (hs : s.live = true → s.engine.LiveOk)
    (hl : t.live = true) : t.engine.LiveOk := by
  rw [State.engine_def]
  cases h with
  | kept hctx hlive => rw [hctx]; exact hs (hlive ▸ hl)
  | wiped hctx hlive => simp [hlive] at hl
  | worked e hok hctx hlive => rwa [hctx, Engine.toEngine_toCtx]

theorem ContextStep.memory {s t : State} (h : ContextStep s t) (hs : Memory.wf s.ctx.s = true) :
    Memory.wf t.ctx.s = true := by
  cases h with
  | kept hctx hlive => rwa [hctx]
  | wiped hctx hlive => rw [hctx, Ctx.zero_wf]
  | worked e hok hctx hlive => rw [hctx, Engine.toCtx_wf]

theorem ContextStep.dead {s t : State} (h : ContextStep s t) (hs : s.live = false → s.ctx = Ctx.zero)
    (hd : t.live = false) : t.ctx = Ctx.zero := by
  cases h with
  | kept hctx hlive => rw [hctx]; exact hs (hlive ▸ hd)
  | wiped hctx hlive => exact hctx
  | worked e hok hctx hlive => simp [hlive] at hd

theorem State.unifDraw_contextStep (s : State) (upper : Word) (hl : s.live = true) (hok : s.engine.LiveOk) :
    ContextStep s (s.unifDraw upper) := by
  obtain ⟨e, he, ⟨bs, h⟩ | h⟩ := s.unifDraw_ends_or_draws upper <;>
    exact .worked e (he hok) (by simp [h]) (by simpa using hl)

theorem effectOf_contextStep (i : Instr) (s : State) (hn : i.needsLive = true → s.live = true)
    (hs : s.live = true → s.engine.LiveOk) : ContextStep s (effectOf i s) := by
  cases i with
  | nop | cmpclr | cmpb x y | cmprd => exact .kept (by simp [effectOf]) (by simp [effectOf])
  | wipe => exact .wiped (by simp [effectOf]) (by simp [effectOf])
  | init => exact .worked Engine.initial Engine.initial_liveOk (by simp [effectOf]) (by simp [effectOf])
  | stop => exact .worked _ ((hs (hn rfl)).absorbStop s.cfg) (by simp [effectOf]) (by simpa [effectOf] using hn rfl)
  | absb b =>
    exact .worked _ ((hs (hn rfl)).absorbByte s.cfg b) (by simp [effectOf]) (by simpa [effectOf] using hn rfl)
  | drip | xorb b => exact .worked _ ((hs (hn rfl)).drip s.cfg) (by simp [effectOf]) (by simpa [effectOf] using hn rfl)
  | u32 => exact .worked _ ((hs (hn rfl)).draw s.cfg) (by simp [effectOf]) (by simpa [effectOf] using hn rfl)
  | sqz n =>
    exact .worked _ ((hs (hn rfl)).squeeze s.cfg n.toNat) (by simp [effectOf]) (by simpa [effectOf] using hn rfl)
  | unif upper =>
    have hl := hn rfl
    rw [effectOf]
    split
    · exact .kept (by simp) (by simp)
    · exact s.unifDraw_contextStep upper hl (hs hl)
  | final n =>
    have hl := hn rfl
    obtain ⟨-, h⟩ | ⟨-, h⟩ := effectOf_final_cases n s <;> rw [h]
    · exact .worked _ ((hs hl).finish s.cfg n) (by simp) (by simpa using hl)
    · exact .wiped (by simp) (by simp)

/-- Executing a command, its gates passed or not. -/
theorem exec_contextStep (i : Instr) (s t : State) (h : exec i s = .next t)
    (hs : s.live = true → s.engine.LiveOk) : ContextStep s t := by
  obtain ⟨-, rfl⟩ | ⟨-, -, -, rfl⟩ | ⟨-, hn, rfl⟩ := exec_cases i s t h
  · exact .kept rfl rfl
  · exact .wiped rfl rfl
  · exact effectOf_contextStep i s hn hs

/-! ### The machine's invariant -/

/-- The reset state is dead, idle and clear. -/
theorem State.resetWith_inv (cfg : Cfg) : (State.resetWith cfg).Inv where
  memory := rfl
  alive := nofun
  dead _ := rfl
  cause := .inl rfl
  locked h := absurd rfl h
  latches _ := ⟨rfl, rfl⟩
  drawing _ := nofun
  partialCommand := rfl

/-- The invariant says nothing of `pc`, the two streams and the count of free values. -/
theorem State.Inv.with_streams {s : State} (h : s.Inv) (pc : Nat) (out cmd : List Byte) (fresh : Nat) :
    ({ s with pc := pc, out := out, cmd := cmd, fresh := fresh } : State).Inv :=
  ⟨h.memory, h.alive, h.dead, h.cause, h.locked, h.latches, h.drawing, h.partialCommand⟩

theorem State.resetNow_inv (s : State) : s.resetNow.Inv :=
  (State.resetWith_inv s.cfg).with_streams _ _ _ _

theorem State.resetWithin_inv (k : Nat) (s u : State) : (State.resetWithin k s u).Inv :=
  u.resetNow_inv.with_streams _ _ _ _

theorem State.Inv.lockedStep {s : State} (h : s.Inv) : s.lockedStep.Inv := by
  obtain ⟨-, hs⟩ | ⟨b, rest, -, hs⟩ := s.lockedStep_cases <;> rw [hs]
  · exact h
  · exact h.with_streams _ _ _ _

/-- Fault entry leaves the block dead, locked and clear, whatever it was (60_exceptions.md R214). -/
theorem State.faultEntry_inv (s : State) (cause : Cause) (n : Nat) (hq : s.seq = .idle) :
    ((s.faultEntry cause).advance n).Inv where
  memory := rfl
  alive := nofun
  dead _ := rfl
  cause := by cases cause <;> simp [Cause.code]
  locked _ := ⟨rfl, rfl⟩
  latches _ := ⟨rfl, rfl⟩
  drawing _ h := by simp [hq] at h
  partialCommand := rfl

/-- What arrived of a command that is not whole is held (20_memory.md R55). -/
theorem State.Inv.hold {s : State} (h : s.Inv) (hq : s.seq = .idle) (he : s.err = 0)
    (hd : decode s.pending = .incomplete) : s.hold.Inv where
  memory := h.memory
  alive := h.alive
  dead := h.dead
  cause := h.cause
  locked hne := absurd he hne
  latches := h.latches
  drawing _ hdraw := by simp [hq] at hdraw
  partialCommand := hd

/-- A command under way on an unlocked block, with the assembler empty: the context's part of the invariant is
`ContextStep`'s, and the latches and an unfinished `UNIF` are what is left to show. -/
theorem State.Inv.of_contextStep {s t : State} (h : s.Inv) (hc : ContextStep s t) (he : t.err = 0)
    (ha : t.asm = []) (hlatches : t.LatchesClear)
    (hdraw : ∀ upper, t.seq = .drawing upper → t.live = true ∧ ¬ upper < 2#32) : t.Inv where
  memory := hc.memory h.memory
  alive := hc.alive h.alive
  dead := hc.dead h.dead
  cause := .inl he
  locked hne := absurd he hne
  latches := hlatches
  drawing upper hq := ⟨(hdraw upper hq).1, ha, (hdraw upper hq).2⟩
  partialCommand := by rw [ha]; rfl

theorem State.Inv.unifDraw {s : State} (h : s.Inv) (upper : Word) (hq : s.seq = .drawing upper) :
    (s.unifDraw upper).Inv := by
  obtain ⟨hl, ha, hb⟩ := h.drawing upper hq
  obtain ⟨herr, hasm, -⟩ := s.unifDraw_keepsPorts upper
  have he : s.err = 0 := by
    by_contra hne
    simp [(h.locked hne).1] at hl
  refine h.of_contextStep (s.unifDraw_contextStep upper hl (h.alive hl)) (herr.trans he) (hasm.trans ha)
    (s.unifDraw_latches upper) fun bound hbound => ⟨(s.unifDraw_live upper).trans hl, ?_⟩
  obtain ⟨hi, -⟩ | ⟨hd, -⟩ := s.unifDraw_seq_pc upper
  · simp [hi] at hbound
  · obtain rfl : upper = bound := by simpa [hd] using hbound
    exact hb

/-- A whole command is taken out of the assembler (20_memory.md R55). -/
theorem State.Inv.taken {s : State} (h : s.Inv) (rest : List Byte) : (s.taken rest).Inv where
  memory := h.memory
  alive := h.alive
  dead := h.dead
  cause := h.cause
  locked hne := ⟨(h.locked hne).1, rfl⟩
  latches := h.latches
  drawing upper hq :=
    have ⟨hl, _, hb⟩ := h.drawing upper hq
    ⟨hl, rfl, hb⟩
  partialCommand := rfl

/-- A command that the assembler has handed over: discarded, faulting, or with its own effect. -/
theorem State.Inv.exec {s t : State} (h : s.Inv) (i : Instr) (hq : s.seq = .idle) (ha : s.asm = [])
    (hx : exec i s = .next t) : t.Inv := by
  have hc := exec_contextStep i s t hx h.alive
  obtain ⟨-, rfl⟩ | ⟨-, -, -, rfl⟩ | ⟨he, hn, rfl⟩ := exec_cases i s t hx
  · exact h.with_streams _ _ _ _
  · exact State.faultEntry_inv _ _ _ hq
  · obtain ⟨herr, hasm, -⟩ := effectOf_keepsPorts i s
    refine h.of_contextStep hc (herr.trans he) (hasm.trans ha) (effectOf_latches i s) fun upper hdraw => ?_
    obtain ⟨rfl, hb⟩ := effectOf_drawing i s upper hq hdraw
    exact ⟨(effectOf_live (.unif upper) s nofun nofun fun _ => nofun).trans (hn rfl), hb⟩

theorem State.Inv.run {s t : State} (h : s.Inv) (hr : s.run = .next t) : t.Inv := by
  obtain ⟨upper, hq, rfl⟩ | ⟨-, -, rfl⟩ | ⟨hq, he, hd, rfl⟩ | ⟨hq, -, rest, -, rfl⟩ | ⟨hq, -, i, rest, -, hx⟩ :=
    s.run_cases t hr
  · exact h.unifDraw upper hq
  · exact h.lockedStep
  · exact h.hold hq he hd
  · exact State.faultEntry_inv _ _ _ hq
  · exact (h.taken rest).exec i hq rfl hx

/-- Settles O5: RESET leaves the reset state, and the block's own step keeps the invariant case by case. -/
theorem stepKeepsTheInvariant : Obligations.StepKeepsTheInvariant := by
  intro s t h hstep
  obtain ⟨-, hr⟩ | ⟨-, rfl⟩ | ⟨k, u, -, -, rfl⟩ := step_cases s t hstep
  · exact h.run hr
  · exact s.resetNow_inv
  · exact State.resetWithin_inv k s u

/-- Settles O6: every engine a command leaves a live context with is as R26 says. -/
theorem liveContextInvariants : Obligations.LiveContextInvariants := by
  intro i s t hs hx hl
  exact (exec_contextStep i s t hx hs).alive hs hl

/-- Settles O16: a locked block discards, and a fault counts, the command's length; a command's own effect is
`effectOf_pc`. -/
theorem pcAdvancesByTheLength : Obligations.PcAdvancesByTheLength := by
  intro i s t hq hx
  obtain ⟨-, rfl⟩ | ⟨-, -, -, rfl⟩ | ⟨-, -, rfl⟩ := exec_cases i s t hx
  · exact ⟨fun _ => rfl, fun hne => absurd hq hne⟩
  · exact ⟨fun _ => rfl, fun hne => absurd hq hne⟩
  · obtain ⟨hi, hpc⟩ | ⟨hne, hpc⟩ := effectOf_pc i s hq
    · exact ⟨fun _ => hpc, fun hne => absurd hi hne⟩
    · exact ⟨fun hi => absurd hi hne, fun _ => hpc⟩

/-- Settles O23: by the command; one that faults finds `live` 0 and leaves it 0. -/
theorem liveFollowsTheLifecycle : Obligations.LiveFollowsTheLifecycle := by
  intro i s t he hx
  obtain ⟨hne, -⟩ | ⟨-, hn, hd, rfl⟩ | ⟨-, -, rfl⟩ := exec_cases i s t hx
  · exact absurd he hne
  · cases i with
    | init | wipe => simp [Instr.needsLive] at hn
    | _ => simp [hd]
  · cases i with
    | init | wipe => simp [effectOf]
    | final n => exact effectOf_final_live n s
    | _ => exact effectOf_live _ s nofun nofun fun _ => nofun

/-- Settles O57: a command that does not fault leaves its own effect, whose frame is read off field by field. -/
theorem commandsKeepWhatTheyDoNotWrite : Obligations.CommandsKeepWhatTheyDoNotWrite := by
  intro i s t he hn hx
  obtain rfl : effectOf i s = t := by simpa [exec_effect i s he hn] using hx
  refine ⟨effectOf_keepsPorts i s, ?context, ?live, ?c, ?out, ?seq⟩
  case context =>
    cases i with
    | nop | cmpclr | cmpb x y | cmprd => simp [effectOf]
    | _ => trivial
  case live =>
    cases i with
    | init | wipe | final n => trivial
    | _ => exact effectOf_live _ s nofun nofun fun _ => nofun
  case c =>
    cases i with
    | cmpclr | cmpb x y => trivial
    | _ => exact effectOf_c _ s nofun fun _ _ => nofun
  case out =>
    cases i with
    | nop | init | stop | wipe | cmpclr | absb b | cmpb x y => simp [effectOf]
    | _ => trivial
  case seq =>
    cases i with
    | unif upper => trivial
    | _ => exact effectOf_seq _ s fun _ => nofun

/-! ### Reset and STATUS (10_state.md R36, R38) -/

/-- Settles O1: the reset state is written out field by field, and no cell is listed. -/
theorem resetStateIsAllZero : Obligations.ResetStateIsAllZero :=
  ⟨fun _ => ⟨fun _ => rfl, rfl, rfl, rfl, rfl, rfl, rfl, rfl, rfl, rfl, rfl, rfl, rfl, rfl, rfl, rfl, rfl⟩, rfl⟩

/-- Settles O4: `State.reset` is the reset state of the build's configuration. -/
theorem resetSatisfiesTheInvariant : Obligations.ResetSatisfiesTheInvariant :=
  ⟨State.resetWith_inv _, State.resetWith_inv⟩

/-- A bit of STATUS stands at its place and nowhere else. -/
theorem statusBit_getElem (b : Bool) (place n : Nat) (hn : n < 8) :
    (statusBit b place)[n] = (decide (n = place) && b) := by
  by_cases h : n < place
  · simp [statusBit, h, show n ≠ place by omega]
  · simp [statusBit, h, show n - place = 0 ↔ n = place by omega]

/-- Settles O58: each place holds its own bit of the union. -/
theorem statusShowsLiveFaultAndConfiguration : Obligations.StatusShowsLiveFaultAndConfiguration := by
  intro s
  simp [State.status, statusBit_getElem]

end Sys2Proof.Machine
end

section
/-! The memory and the streams (20_memory.md): 32-bit values as four bytes, the assembler that takes a command's
bytes, the response stream that only grows, and where `ABSB` stores while it does not shuffle. -/

namespace Sys2Proof.Machine

open Sys2Proof

/-! ### 32-bit values (R58) -/

/-- A word is its four bytes side by side, the first the most significant. -/
theorem wordOfBytes_eq_append (b1 b2 b3 b4 : Byte) : wordOfBytes b1 b2 b3 b4 = b1 ++ b2 ++ b3 ++ b4 := by
  rw [← BitVec.setWidth_eq (b1 ++ b2 ++ b3 ++ b4), BitVec.setWidth_append_append_append_eq_shiftLeft_setWidth_or]
  rfl

/-- A byte put below a value makes room for itself by a factor of 256. -/
theorem toNat_append_byte {n : Nat} (v : BitVec n) (b : Byte) : (v ++ b).toNat = v.toNat * 2 ^ 8 + b.toNat := by
  rw [BitVec.toNat_append, ← Nat.shiftLeft_add_eq_or_of_lt b.isLt, Nat.shiftLeft_eq]

theorem toNat_wordOfBytes (b1 b2 b3 b4 : Byte) : (wordOfBytes b1 b2 b3 b4).toNat =
    b1.toNat * 2 ^ 24 + b2.toNat * 2 ^ 16 + b3.toNat * 2 ^ 8 + b4.toNat := by
  rw [wordOfBytes_eq_append, toNat_append_byte, toNat_append_byte, toNat_append_byte]
  omega

/-- Assembling the bytes of a word gives the word: each slice goes on where the one below it ends. -/
theorem wordOfBytes_extract (v : Word) :
    wordOfBytes (v.extractLsb' 24 8) (v.extractLsb' 16 8) (v.extractLsb' 8 8) (v.extractLsb' 0 8) = v := by
  rw [wordOfBytes_eq_append, BitVec.extractLsb'_append_extractLsb'_eq_extractLsb' (show 24 = 16 + 8 from rfl),
    BitVec.extractLsb'_append_extractLsb'_eq_extractLsb' (show 16 = 8 + 8 from rfl),
    BitVec.extractLsb'_append_extractLsb'_eq_extractLsb' (show 8 = 0 + 8 from rfl), BitVec.extractLsb'_eq_self]

/-- Settles O43: the word is its four bytes side by side, read there as digits to the base 256 and as slices. -/
theorem wordsAreMostSignificantByteFirst : Obligations.WordsAreMostSignificantByteFirst :=
  ⟨fun b0 b1 b2 b3 => ⟨toNat_wordOfBytes b0 b1 b2 b3, bytesOfWord_wordOfBytes b0 b1 b2 b3⟩,
    fun v => ⟨_, _, _, _, rfl, wordOfBytes_extract v⟩⟩

/-! ### The command stream (R55, R60) -/

/-- Settles O12: a block that is free to decode runs what it decodes. -/
theorem stepRunsTheDecodedCommand : Obligations.StepRunsTheDecodedCommand := by
  intro s i rest hr hq he hd
  rw [step_decode s hr hq he, s.decodeStep_ok i rest hd]
  rfl

/-- Bytes pushed after the assembler has taken some join them as if they had all come before. -/
theorem State.pending_hold_pushAll (s : State) (more : List Byte) :
    (s.hold.pushAll more).pending = (s.pushAll more).pending := by
  simp [State.pending]

/-- The assembler decodes the bytes that have arrived, however they are shared out between it and the stream. -/
theorem State.decodeStep_hold_pushAll (s : State) (more : List Byte) :
    (s.hold.pushAll more).decodeStep = (s.pushAll more).decodeStep := by
  have hp := s.pending_hold_pushAll more
  cases hd : decode (s.pushAll more).pending with
  | ok i rest =>
    rw [State.decodeStep_ok _ i rest (hp ▸ hd), State.decodeStep_ok _ i rest hd]
    rfl
  | illegalOpcode rest =>
    rw [State.decodeStep_illegal _ rest (hp ▸ hd), State.decodeStep_illegal _ rest hd]
    rfl
  | incomplete =>
    rw [State.decodeStep_incomplete _ (hp ▸ hd), State.decodeStep_incomplete _ hd, State.hold, hp]
    rfl

/-- Settles O14: the step that holds a partial command only moves its bytes into the assembler. -/
theorem bytesMayArriveInPieces : Obligations.BytesMayArriveInPieces := by
  intro s t more hr hq he hd hs
  rw [step_decode s hr hq he, s.decodeStep_incomplete hd] at hs
  obtain rfl : s.hold = t := by simpa using hs
  rw [step_decode (s.hold.pushAll more) hr hq he, step_decode (s.pushAll more) hr hq he,
    s.decodeStep_hold_pushAll more]

/-! ### The response stream (R56) -/

theorem State.unifDraw_out_prefix (s : State) (upper : Word) : s.out <+: (s.unifDraw upper).out := by
  obtain ⟨e, -, ⟨bs, h⟩ | h⟩ := s.unifDraw_ends_or_draws upper <;> simp [h]

theorem effectOf_out_prefix (i : Instr) (s : State) : s.out <+: (effectOf i s).out := by
  cases i with
  | unif upper =>
    rw [effectOf]
    split
    · simp
    · exact s.unifDraw_out_prefix upper
  | final n => simp [effectOf_final_out]
  | _ => simp [effectOf]

theorem exec_out_prefix (i : Instr) (s t : State) (h : exec i s = .next t) : s.out <+: t.out := by
  obtain ⟨-, rfl⟩ | ⟨-, -, -, rfl⟩ | ⟨-, -, rfl⟩ := exec_cases i s t h
  · exact List.prefix_refl _
  · exact List.prefix_refl _
  · exact effectOf_out_prefix i s

theorem State.run_out_prefix (s t : State) (h : s.run = .next t) : s.out <+: t.out := by
  obtain ⟨upper, -, rfl⟩ | ⟨-, -, rfl⟩ | ⟨-, -, -, rfl⟩ | ⟨-, -, rest, -, rfl⟩ | ⟨-, -, i, rest, -, hx⟩ :=
    s.run_cases t h
  · exact s.unifDraw_out_prefix upper
  · obtain ⟨-, hs⟩ | ⟨b, rest, -, hs⟩ := s.lockedStep_cases <;> rw [hs]
  · exact List.prefix_refl _
  · exact List.prefix_refl _
  · exact exec_out_prefix i (s.taken rest) t hx

/-- What RESET lets out is put after what was out before (70_reset_and_hazards.md R242). -/
theorem State.resetWithin_out (k : Nat) (s u : State) :
    (State.resetWithin k s u).out = s.out ++ (u.out.drop s.out.length).take k := rfl

theorem step_out_prefix (s t : State) (h : step s = .next t) : s.out <+: t.out := by
  obtain ⟨-, hu⟩ | ⟨-, rfl⟩ | ⟨k, u, -, -, rfl⟩ := step_cases s t h
  · exact s.run_out_prefix t hu
  · exact List.prefix_refl _
  · rw [State.resetWithin_out]
    exact List.prefix_append _ _

/-- Settles O18: what is out after the step begins with what was out before it. -/
theorem responseStreamOnlyGrows : Obligations.ResponseStreamOnlyGrows := by
  intro s t h
  obtain ⟨emitted, hout⟩ := step_out_prefix s t h
  exact ⟨emitted, hout.symm⟩

/-! ### The absorb region (R53; 40_primitives.md R108, R109) -/

/-- While `a` is not 128, an absorb step is one exchange and one count. -/
theorem Engine.absorbNibble_of_ne (cfg : Cfg) (e : Engine) (x : BitVec 4) (h : e.a ≠ 0x80#8) :
    e.absorbNibble cfg x = { e.swap e.a (nibbleAddr x) with a := e.a + 1 } := by
  rw [Engine.absorbNibble, Engine.shuffleIfFull_of_ne cfg e h]
  rfl

/-- With room for two absorb steps, absorbing a byte is two exchanges and two counts. -/
theorem Engine.absorbByte_of_room (cfg : Cfg) (e : Engine) (b : Byte) (h : e.a ≤ 126#8) :
    e.absorbByte cfg b =
      { (e.swap e.a (nibbleAddr (lowNibble b))).swap (e.a + 1) (nibbleAddr (highNibble b)) with a := e.a + 2 } := by
  have h0 : e.a ≠ 0x80#8 := by bv_omega
  have h1 : e.a + 1 ≠ 0x80#8 := by bv_omega
  have h2 : e.a + 1 + 1 = e.a + 2 := by bv_omega
  rw [Engine.absorbByte, Engine.absorbNibble_of_ne cfg e _ h0, Engine.absorbNibble_of_ne cfg _ _ h1]
  simp only [h2]
  rfl

/-- The entries after it: the later exchange is undone first. -/
theorem Engine.load_absorbByte_of_room (cfg : Cfg) (e : Engine) (b : Byte) (h : e.a ≤ 126#8) (v : Byte) :
    (e.absorbByte cfg b).load v =
      e.load (Equiv.swap e.a (nibbleAddr (lowNibble b)) (Equiv.swap (e.a + 1) (nibbleAddr (highNibble b)) v)) := by
  rw [Engine.absorbByte_of_room cfg e b h]
  exact (Engine.load_swap _ _ _ v).trans (Engine.load_swap _ _ _ _)

/-- Settles O27: the two exchanges say where each byte comes from, and an address neither names stays where it is. -/
theorem absbStoresOnlyInTheAbsorbRegion : Obligations.AbsbStoresOnlyInTheAbsorbRegion := by
  intro b s he hl hwf ha low high
  have hctx : (effectOf (.absb b) s).ctx = (s.engine.absorbByte s.cfg b).toCtx := by simp [effectOf]
  have hroom := Engine.absorbByte_of_room s.cfg s.engine b ha
  have hread : ∀ x : Byte, Memory.read (effectOf (.absb b) s).ctx.s x.toNat =
      Memory.read s.ctx.s (Equiv.swap s.ctx.a low (Equiv.swap (s.ctx.a + 1) high x)).toNat := by
    intro x
    rw [hctx, Engine.read_toCtx, Engine.load_absorbByte_of_room s.cfg s.engine b ha, State.engine_def,
      Ctx.load_toEngine s.ctx hwf]
    rfl
  refine ⟨_, exec_effect (.absb b) s he fun _ => hl, ?a, hread, fun x ha0 ha1 hlow hhigh => ?outside, ?registers⟩
  case a =>
    rw [hctx, hroom]
    rfl
  case outside =>
    rw [hread x, Equiv.swap_apply_of_ne_of_ne ha1 hhigh, Equiv.swap_apply_of_ne_of_ne ha0 hlow]
  case registers =>
    rw [hctx, hroom]
    exact ⟨rfl, rfl, rfl, rfl, rfl⟩

end Sys2Proof.Machine
end

section
/-! The encoding (30_encoding.md): the decoder and the encoder undo each other, bits 7:6 of the opcode byte alone
decide a command's length, a partial command waits, each command emits the bytes R93 counts, and what the `STOP` of
`SETUPIV` is for. -/

namespace Sys2Proof.Machine

open Sys2Proof

/-! ### The decoder and the encoder undo each other (R71 to R77) -/

/-- Settles O7: an opcode finds its own row of the table, and the `UNIF` operand is assembled from its own bytes. -/
theorem decodeInvertsEncode : Obligations.DecodeInvertsEncode := by
  intro i rest
  cases i with
  | unif upper => exact congrArg (fun v => Decoded.ok (.unif v) rest) (wordOfBytes_extract upper)
  | _ => rfl

theorem parse_ne_illegalOpcode (row : Form) (operands rest : List Byte) :
    row.parse operands ≠ .illegalOpcode rest := by
  fun_cases Form.parse <;> simp

/-- What a row of the table parses, the encoder gives back under that row's opcode. -/
theorem encode_of_parse {op : Byte} {row : Form} {operands rest : List Byte} {i : Instr}
    (hrow : opcodeTable.lookup op = some row) (h : row.parse operands = .ok i rest) :
    op :: operands = encode i ++ rest := by
  obtain ⟨hnone, -⟩ | ⟨f, hz, -, -, henc⟩ | ⟨f, hb, -, -, -, henc⟩ | ⟨hp, rfl⟩ | ⟨hw, rfl⟩ := opcodeTable_cases op
  · simp [hnone] at hrow
  · obtain rfl : Form.z f = row := by simpa [hz] using hrow
    obtain ⟨rfl, rfl⟩ : f = i ∧ operands = rest := by simpa [Form.parse] using h
    rw [henc]
    rfl
  · obtain rfl : Form.b f = row := by simpa [hb] using hrow
    match operands, h with
    | b1 :: _, rfl => rw [henc b1]; rfl
  · obtain rfl : Form.p .cmpb = row := by simpa [hp] using hrow
    match operands, h with
    | b1 :: b2 :: _, rfl => rfl
  · obtain rfl : Form.w .unif = row := by simpa [hw] using hrow
    match operands, h with
    | b1 :: b2 :: b3 :: b4 :: _, rfl => rw [encode, bytesOfWord_wordOfBytes]; rfl

/-- Settles O8: the decoder parses by the row of the opcode byte. -/
theorem encodeInvertsDecode : Obligations.EncodeInvertsDecode := by
  intro bytes i rest h
  cases bytes with
  | nil => simp [decode] at h
  | cons op operands =>
    rw [decode_cons] at h
    cases hrow : opcodeTable.lookup op with
    | none => simp [hrow] at h
    | some row => exact encode_of_parse hrow (by simpa [hrow] using h)

/-! ### The length of a command (R70) -/

/-- Every command's bytes are as `EncodedLength.Statement` has them. -/
theorem encodedLength (i : Instr) : Laws.EncodedLength.Statement i := by
  cases i with
  | nop => exact Laws.EncodedLength.nop
  | init => exact Laws.EncodedLength.init
  | stop => exact Laws.EncodedLength.stop
  | drip => exact Laws.EncodedLength.drip
  | u32 => exact Laws.EncodedLength.u32
  | wipe => exact Laws.EncodedLength.wipe
  | cmpclr => exact Laws.EncodedLength.cmpclr
  | cmprd => exact Laws.EncodedLength.cmprd
  | absb b => exact Laws.EncodedLength.absb b
  | xorb b => exact Laws.EncodedLength.xorb b
  | sqz n => exact Laws.EncodedLength.sqz n
  | final n => exact Laws.EncodedLength.final n
  | cmpb x y => exact Laws.EncodedLength.cmpb x y
  | unif upper => exact Laws.EncodedLength.unif upper

/-- Formats Z and B announce as many operand bytes as bits 7:6 read as a number (R70). -/
theorem operandCount_of_lt {op : Byte} (h : op.toNat < 128) : operandCount op = op.toNat / 64 := by
  rw [operandCount, BitVec.toNat_ushiftRight, Nat.shiftRight_eq_div_pow]
  have hbits : op.toNat / 2 ^ 6 < 2 := by omega
  interval_cases op.toNat / 2 ^ 6 <;> rfl

/-- A legal opcode and as many operand bytes as it announces are a command, whatever the bytes are (R78). -/
theorem exists_encode_eq {op : Byte} {operands : List Byte} (hop : legalOpcode op = true)
    (hlen : operands.length = operandCount op) : ∃ i, encode i = op :: operands := by
  obtain ⟨-, hn⟩ | ⟨f, -, h8, -, henc⟩ | ⟨f, -, h64, h68, -, henc⟩ | ⟨-, rfl⟩ | ⟨-, rfl⟩ := opcodeTable_cases op
  · simp [hop] at hn
  · rw [operandCount_of_lt (by omega)] at hlen
    obtain rfl := List.eq_nil_of_length_eq_zero (show operands.length = 0 by omega)
    exact ⟨f, henc⟩
  · rw [operandCount_of_lt (by omega)] at hlen
    obtain ⟨b, rfl⟩ := List.length_eq_one_iff.mp (show operands.length = 1 by omega)
    exact ⟨f b, henc b⟩
  · obtain ⟨x, y, rfl⟩ := List.length_eq_two.mp hlen
    exact ⟨.cmpb x y, rfl⟩
  · match operands, hlen with
    | [b1, b2, b3, b4], _ =>
      exact ⟨.unif (wordOfBytes b1 b2 b3 b4), congrArg _ (bytesOfWord_wordOfBytes b1 b2 b3 b4)⟩

/-- A command decoded is its opcode byte and as many of the next bytes as that announces. -/
theorem decode_ok_length {op : Byte} {operands rest : List Byte} {i : Instr}
    (h : decode (op :: operands) = .ok i rest) :
    operands.length = operandCount op + rest.length ∧ i.length = 1 + operandCount op ∧
      encode i = op :: operands.take (operandCount op) := by
  obtain ⟨op', own, henc, -, hown, hi, -, -⟩ := encodedLength i
  have hbytes : op :: operands = op' :: (own ++ rest) := by simpa [henc] using encodeInvertsDecode _ i rest h
  obtain ⟨rfl, rfl⟩ := List.cons.inj hbytes
  exact ⟨by rw [List.length_append, hown], hi, by rw [henc, List.take_left' hown]⟩

/-- A legal opcode with its operand bytes after it decodes, and leaves the bytes after those. -/
theorem decode_of_enough {op : Byte} {operands : List Byte} (hop : legalOpcode op = true)
    (hlen : operandCount op ≤ operands.length) :
    ∃ i, decode (op :: operands) = .ok i (operands.drop (operandCount op)) := by
  obtain ⟨i, henc⟩ := exists_encode_eq (operands := operands.take (operandCount op)) hop
    (List.length_take_of_le hlen)
  refine ⟨i, ?_⟩
  simpa [henc] using decodeInvertsEncode i (operands.drop (operandCount op))

theorem decode_ne_illegalOpcode {op : Byte} (hop : legalOpcode op = true) (operands rest : List Byte) :
    decode (op :: operands) ≠ .illegalOpcode rest := by
  obtain ⟨-, hn⟩ | ⟨f, hrow, -⟩ | ⟨f, hrow, -⟩ | ⟨hrow, -⟩ | ⟨hrow, -⟩ := opcodeTable_cases op
  · simp [hop] at hn
  all_goals
    rw [decode_cons, hrow]
    exact parse_ne_illegalOpcode _ operands rest

/-- A legal opcode with too few bytes after it is awaited: what decodes is long enough. -/
theorem decode_of_too_few {op : Byte} {operands : List Byte} (hop : legalOpcode op = true)
    (hlen : operands.length < operandCount op) : decode (op :: operands) = .incomplete := by
  cases hd : decode (op :: operands) with
  | ok i rest =>
    obtain ⟨hlen', -, -⟩ := decode_ok_length hd
    omega
  | illegalOpcode rest => exact absurd hd (decode_ne_illegalOpcode hop operands rest)
  | incomplete => rfl

/-- Bits 7:6, cut out of the opcode byte, are the byte shifted down by 6. -/
theorem extractLsb'_top_two (op : Byte) : (op.extractLsb' 6 2).toNat = (op >>> 6).toNat := by
  rw [BitVec.extractLsb'_toNat, BitVec.toNat_ushiftRight, Nat.shiftRight_eq_div_pow]
  omega

/-- Settles O9: the number of operand bytes bits 7:6 announce is `operandCount`. -/
theorem lengthByTopTwoBits : Obligations.LengthByTopTwoBits := by
  intro op operands
  rw [extractLsb'_top_two]
  exact ⟨fun _ _ => decode_ok_length, fun hop => ⟨decode_of_enough hop, decode_of_too_few hop⟩⟩

/-- Settles O11: the words are literals, and the decoder computes. -/
theorem sampleWordsDecode : Obligations.SampleWordsDecode := by
  unfold Obligations.SampleWordsDecode
  decide

/-! ### A partial command (R79) -/

theorem State.pending_hold (s : State) : s.hold.pending = s.pending := by
  simp [State.pending]

/-- The bytes a waiting block holds are all in the assembler already. -/
theorem State.hold_hold (s : State) : s.hold.hold = s.hold := by
  rw [State.hold, State.pending_hold]
  rfl

/-- A block free to decode that finds no whole command holds what has arrived. -/
theorem step_incomplete {s : State} (hr : s.rst = .low) (hq : s.seq = .idle) (he : s.err = 0)
    (hd : decode s.pending = .incomplete) : step s = .next s.hold := by
  rw [step_decode s hr hq he, s.decodeStep_incomplete hd]

/-- A run that has ended well has nothing left in the assembler (70_reset_and_hazards.md R244). -/
theorem State.endedWell_eq_false {s : State} (h : s.asm ≠ []) (n : Nat) : s.endedWell n = false := by
  simp [State.endedWell, h]

/-- Settles O13: holding twice is holding once, and RESET empties the assembler. -/
theorem partialCommandWaits : Obligations.PartialCommandWaits := by
  intro s hr hq he hd
  have hwait : step s.hold = .next s.hold.hold := step_incomplete hr hq he (s.pending_hold ▸ hd)
  rw [State.hold_hold] at hwait
  exact ⟨step_incomplete hr hq he hd, hwait, fun hne => s.hold.endedWell_eq_false hne,
    s.hold.assertReset.resetNow, step_high s.hold.assertReset rfl, rfl⟩

/-! ### Response lengths (R93) -/

/-- `UNIF`'s loop has emitted a 32-bit value when it ends. -/
theorem State.unifDraw_out_length {s : State} {upper : Word} (h : (s.unifDraw upper).seq = .idle) :
    (s.unifDraw upper).out.length = s.out.length + 4 := by
  obtain ⟨k, -, -, -, hu⟩ | ⟨-, hu⟩ := s.unifDraw_cases upper
  · simp [hu, bytesOfWord]
  · simp [hu] at h

/-- A command that has finished has emitted as many bytes as `Instr.emits` counts. -/
theorem effectOf_out_length {i : Instr} {s : State} (h : (effectOf i s).seq = .idle) :
    (effectOf i s).out.length = s.out.length + i.emits := by
  cases i with
  | sqz n => simp [effectOf, Engine.squeeze_length, Instr.emits]
  | final n => simp [effectOf_final_out, Engine.finish, Engine.squeeze_length, Instr.emits]
  | unif upper =>
    rw [effectOf] at h ⊢
    by_cases hlow : upper < 2#32
    · simp [hlow, bytesOfWord, Instr.emits]
    · rw [if_neg hlow] at h ⊢
      exact State.unifDraw_out_length h
  | _ => simp [effectOf, bytesOfWord, Instr.emits]

/-- Settles O17: a fault emits nothing, and a command's own effect keeps `err` 0 and emits `Instr.emits` bytes. -/
theorem responseCountsAreFixed : Obligations.ResponseCountsAreFixed := by
  intro i s t he _ hx ht
  obtain ⟨hne, -⟩ | ⟨-, -, -, rfl⟩ | ⟨-, -, rfl⟩ := exec_cases i s t hx
  · exact absurd he hne
  · exact ⟨[], by simp, fun h0 => by simp [Cause.code] at h0, fun _ => rfl⟩
  · obtain ⟨emitted, hout⟩ := effectOf_out_prefix i s
    obtain ⟨herr, -⟩ := effectOf_keepsPorts i s
    have hlen : emitted.length = i.emits := by
      have hlen := effectOf_out_length ht
      rw [← hout, List.length_append] at hlen
      exact Nat.add_left_cancel hlen
    refine ⟨emitted, hout.symm, fun _ => hlen.trans ?_, fun hne => absurd (herr.trans he) hne⟩
    cases i <;> rfl

/-! ### Key and nonce (R85, R135; 70_reset_and_hazards.md R246) -/

theorem expandAbsorb_injective : Function.Injective expandAbsorb :=
  List.map_injective_iff.mpr fun _ _ => Instr.absb.inj

theorem stop_notMem_expandAbsorb (buf : List Byte) : Instr.stop ∉ expandAbsorb buf := by
  simp [expandAbsorb]

theorem expandAbsorb_append (buf buf' : List Byte) :
    expandAbsorb buf ++ expandAbsorb buf' = expandAbsorb (buf ++ buf') :=
  List.map_append.symm

/-- Settles O60: no `ABSB` is a `STOP`, so the expansion is cut where its `STOP` stands; without one it is the `ABSB`s
of the concatenation. -/
theorem setupIvSeparatesKeyFromNonce : Obligations.SetupIvSeparatesKeyFromNonce := by
  intro key nonce key' nonce'
  constructor
  case left =>
    have hcut := List.append_cons_inj_of_notMem (z₂ := expandAbsorb nonce') (x₂ := expandAbsorb key') (a₁ := .stop)
      (stop_notMem_expandAbsorb key) (stop_notMem_expandAbsorb nonce)
    simpa [Source.expand, expandAbsorb_injective.eq_iff] using hcut
  case right =>
    simp [Source.expand, expandAbsorb_append, expandAbsorb_injective.eq_iff]

end Sys2Proof.Machine
end

section
/-! The micro-operations (40_primitives.md): the engine's exchange and mixing step, `crush` as 128 pair steps that
do not meet, the stride that stays odd and so reaches every index, the count `a`, and that no operation destroys the
S-box. -/

namespace Sys2Proof.Machine

open Sys2Proof

/-! ### `swap` and `update` (R101, R102) -/

@[simp] theorem Engine.load_swap_left (e : Engine) (x y : Byte) : (e.swap x y).load x = e.load y := by
  rw [Engine.load_swap, Equiv.swap_apply_left]

@[simp] theorem Engine.load_swap_right (e : Engine) (x y : Byte) : (e.swap x y).load y = e.load x := by
  rw [Engine.load_swap, Equiv.swap_apply_right]

theorem Engine.load_swap_of_ne (e : Engine) {x y v : Byte} (hx : v ≠ x) (hy : v ≠ y) :
    (e.swap x y).load v = e.load v := by
  rw [Engine.load_swap, Equiv.swap_apply_of_ne_of_ne hx hy]

@[simp] theorem Engine.swap_self (e : Engine) (x : Byte) : e.swap x x = e :=
  Engine.ext_load _ _ (fun v => by rw [Engine.load_swap, Equiv.swap_self, Equiv.refl_apply]) rfl rfl rfl rfl rfl rfl

/-- Settles O29: the exchange is a transposition of addresses. -/
theorem swapExchangesTwoEntries : Obligations.SwapExchangesTwoEntries := fun e x y =>
  ⟨e.load_swap_left x y, e.load_swap_right x y, fun _ => e.load_swap_of_ne, e.swap_self x,
    rfl, rfl, rfl, rfl, rfl, rfl⟩

theorem Engine.load_update_left (e : Engine) : e.update.load e.update.i = e.load e.update.j := by
  rw [Engine.load_update, Equiv.swap_apply_left]

theorem Engine.load_update_right (e : Engine) : e.update.load e.update.j = e.load e.update.i := by
  rw [Engine.load_update, Equiv.swap_apply_right]

theorem Engine.load_update_of_ne (e : Engine) {v : Byte} (hi : v ≠ e.update.i) (hj : v ≠ e.update.j) :
    e.update.load v = e.load v := by
  rw [Engine.load_update, Equiv.swap_apply_of_ne_of_ne hi hj]

/-- Where the new `i` and `j` are equal, `update` leaves the S-box as it was. -/
theorem Engine.update_s_of_eq (e : Engine) (h : e.update.i = e.update.j) : e.update.s = e.s := by
  refine Image.ext_load _ _ fun v => (e.load_update v).trans ?_
  rw [h, Equiv.swap_self, Equiv.refl_apply]
  rfl

/-- Settles O30: the registers are `update`'s assignments, the entries those of the exchange that ends it. -/
theorem updateMixesOnce : Obligations.UpdateMixesOnce := fun e =>
  ⟨e.update_i, e.update_j, e.update_k, e.load_update_left, e.load_update_right, fun _ => e.load_update_of_ne,
    e.update_s_of_eq, e.update_z, e.update_a, e.update_w⟩

/-! ### The stride (R103, R104, R107) -/

/-- An odd byte is coprime to 256, so its multiples are all the bytes. -/
theorem exists_mul_eq_of_odd {w : Byte} (hw : oddByte w = true) (d : Byte) :
    ∃ n ≤ 255, BitVec.ofNat 8 n * w = d := by
  have hodd : w.toNat % 2 = 1 := by simpa [oddByte, BitVec.getLsbD, Nat.testBit_zero] using hw
  have hcop : Nat.Coprime w.toNat (2 ^ 8) := (Nat.coprime_two_right.2 (Nat.odd_iff.2 hodd)).pow_right 8
  obtain ⟨n, hn, hmul⟩ := Nat.exists_mul_mod_eq_of_coprime d.toNat hcop (by decide)
  refine ⟨n, by omega, BitVec.eq_of_toNat_eq ?_⟩
  rw [BitVec.toNat_mul, BitVec.toNat_ofNat, Nat.mod_mul_mod, Nat.mul_comm, hmul, Nat.mod_eq_of_lt d.isLt]

/-- With an odd stride `i` comes to every index within 255 updates. -/
theorem Engine.updates_reach (e : Engine) (hw : oddByte e.w = true) (v : Byte) :
    ∃ n ≤ 255, (Engine.update^[n] e).i = v := by
  obtain ⟨n, hn, hmul⟩ := exists_mul_eq_of_odd hw (v - e.i)
  refine ⟨n, hn, ?_⟩
  rw [(e.updates_regs n).1, hmul, BitVec.add_comm, BitVec.sub_add_cancel]

/-- 512 strides are two whole rounds of the index. -/
theorem Engine.whip_512_i (e : Engine) : (e.whip 512).i = e.i := by
  rw [Engine.whip_i, show BitVec.ofNat 8 512 = 0#8 from rfl, BitVec.zero_mul, BitVec.add_zero]

/-- Settles O31: `r` updates move `i` by `r` strides, and a stride keeps its low bit when 2 is added. -/
theorem strideStaysOdd : Obligations.StrideStaysOdd := by
  refine ⟨rfl, fun e => ⟨fun r => ?whip, fun cfg => ⟨rfl, e.shuffle_z cfg⟩, fun r => ?parity, rfl,
    fun _ _ => rfl, fun cfg => e.crush_w cfg, rfl, fun cfg => ⟨e.shuffle_w cfg, e.shuffle_i cfg⟩,
    e.whip_512_i, e.updates_reach⟩⟩
  case whip =>
    obtain ⟨-, -, -, hw⟩ := e.updates_regs r
    exact ⟨e.whip_def r, hw, e.whip_z r, e.whip_a r⟩
  case parity =>
    rw [Engine.whip_w]
    exact oddByte_add_two e.w

/-! ### `crush` (R105, R106) -/

/-- The first `n` pair steps of `crush`. -/
def Engine.crushPairs (n : Nat) (e : Engine) : Engine :=
  forUpTo n (fun p e => e.crushPairPlain (pairAddr p).1 (pairAddr p).2) e

theorem Engine.crushPairs_succ (n : Nat) (e : Engine) :
    e.crushPairs (n + 1) = (e.crushPairs n).crushPairPlain (BitVec.ofNat 8 n) (255#8 - BitVec.ofNat 8 n) := rfl

theorem Engine.crush_eq_crushPairs (cfg : Cfg) (e : Engine) : e.crush cfg = e.crushPairs 128 :=
  Engine.crush_eq_plain cfg e

/-- What a pair step does not address, it leaves. -/
theorem Engine.load_crushPairPlain_of_ne (e : Engine) {p q v : Byte} (hp : v ≠ p) (hq : v ≠ q) :
    (e.crushPairPlain p q).load v = e.load v := by
  rw [Engine.load_crushPairPlain, Equiv.swap_apply_of_ne_of_ne hp hq, ite_self]

/-- A pair step depends on the entries of its pair alone. -/
theorem Engine.load_crushPairPlain_congr {e e' : Engine} {p q v : Byte} (hp : e.load p = e'.load p)
    (hq : e.load q = e'.load q) (hv : v = p ∨ v = q) :
    (e.crushPairPlain p q).load v = (e'.crushPairPlain p q).load v := by
  rcases hv with rfl | rfl <;> simp only [Engine.load_crushPairPlain, Equiv.swap_apply_left,
    Equiv.swap_apply_right, hp, hq]

/-- The pairs do not meet: a pair's entries are as they were before its own step, and as that step leaves them
after it. -/
theorem Engine.load_crushPairs (e : Engine) (p : Byte) (hp : p ≤ 127#8) (n : Nat) (hn : n ≤ 128) :
    ∀ v, v = p ∨ v = 255#8 - p →
      (e.crushPairs n).load v = if p.toNat < n then (e.crushPairPlain p (255#8 - p)).load v else e.load v := by
  induction n with
  | zero => exact fun _ _ => rfl
  | succ n ih =>
    intro v hv
    have ih := ih (by omega)
    rw [Engine.crushPairs_succ]
    by_cases hpn : p.toNat = n
    · have before : ∀ u, u = p ∨ u = 255#8 - p → (e.crushPairs n).load u = e.load u := fun u hu => by
        rw [ih u hu, if_neg (by omega)]
      rw [← hpn, BitVec.ofNat_toNat, BitVec.setWidth_eq, if_pos (by omega), hpn]
      exact Engine.load_crushPairPlain_congr (before _ (.inl rfl)) (before _ (.inr rfl)) hv
    · have hx : v ≠ BitVec.ofNat 8 n := by bv_omega
      have hy : v ≠ 255#8 - BitVec.ofNat 8 n := by bv_omega
      rw [Engine.load_crushPairPlain_of_ne _ hx hy, ih v hv]
      exact if_congr (by omega) rfl rfl

/-- `crush` leaves of a pair what the pair's own step leaves of it. -/
theorem Engine.load_crush (cfg : Cfg) (e : Engine) {p v : Byte} (hp : p ≤ 127#8) (hv : v = p ∨ v = 255#8 - p) :
    (e.crush cfg).load v = (e.crushPairPlain p (255#8 - p)).load v := by
  rw [Engine.crush_eq_crushPairs, e.load_crushPairs p hp 128 (by omega) v hv, if_pos (by bv_omega)]

theorem Engine.load_crushPairPlain_left (e : Engine) (p q : Byte) :
    (e.crushPairPlain p q).load p = if e.load p > e.load q then e.load q else e.load p := by
  rw [Engine.load_crushPairPlain, Equiv.swap_apply_left]

theorem Engine.load_crushPairPlain_right (e : Engine) (p q : Byte) :
    (e.crushPairPlain p q).load q = if e.load p > e.load q then e.load p else e.load q := by
  rw [Engine.load_crushPairPlain, Equiv.swap_apply_right]

/-- A pair step sorts two entries that differ. -/
theorem Engine.crushPairPlain_sorts (e : Engine) {p q : Byte} (h : e.load p ≠ e.load q) :
    (e.crushPairPlain p q).load p < (e.crushPairPlain p q).load q := by
  rw [Engine.load_crushPairPlain_left, Engine.load_crushPairPlain_right]
  split
  · assumption
  · bv_omega

/-- Settles O32: each pair goes through its own step alone, and a permutation's entries differ. -/
theorem crushSortsEveryPair : Obligations.CrushSortsEveryPair := by
  refine fun cfg e => ⟨fun p hp => ?_, e.crush_regs cfg⟩
  rw [e.load_crush cfg hp (.inl rfl), e.load_crush cfg hp (.inr rfl)]
  have hne : p ≠ 255#8 - p := by bv_omega
  exact ⟨e.load_crushPairPlain_left _ _, e.load_crushPairPlain_right _ _,
    fun hbij => e.crushPairPlain_sorts (hbij.injective.ne hne)⟩

/-- Settles O33: the masked step is the plain one, which puts the smaller value first. -/
theorem maskedCrushEqualsPlainCrush : Obligations.MaskedCrushEqualsPlainCrush := by
  refine ⟨crushMask_def, fun e p q _ => ?minmax, Engine.crushPairMasked_eq, fun cfg cfg' e => ?config⟩
  case minmax =>
    rw [Engine.crushPairMasked_eq, Engine.load_crushPairPlain_left, Engine.load_crushPairPlain_right]
    split <;> constructor <;> bv_omega
  case config => rw [Engine.crush_eq_plain, Engine.crush_eq_plain]

/-! ### The absorb steps and the count `a` (R108, R118) -/

/-- At `a = 128` an absorb step is the shuffle and then an absorb step (R108). -/
theorem Engine.absorbNibble_of_full (cfg : Cfg) (e : Engine) (x : BitVec 4) (h : e.a = 0x80#8) :
    e.absorbNibble cfg x = (e.shuffle cfg).absorbNibble cfg x := by
  have hroom : (e.shuffle cfg).a ≠ 0x80#8 := by simp
  rw [Engine.absorbNibble, Engine.absorbNibble, Engine.shuffleIfFull_of_ne cfg _ hroom, Engine.shuffleIfFull, if_pos h]

/-- Settles O34: with room the step is one exchange and one count; without, the shuffle makes room first. -/
theorem absorbNibbleSwapsAndCounts : Obligations.AbsorbNibbleSwapsAndCounts := by
  intro cfg e x y e'
  refine ⟨fun hroom => ?room, fun hfull => ?full⟩
  case room =>
    have hstep : e' = { e.swap e.a y with a := e.a + 1 } := e.absorbNibble_of_ne cfg x hroom
    rw [hstep]
    exact ⟨e.load_swap_left _ _, e.load_swap_right _ _, fun _ => e.load_swap_of_ne, rfl, rfl, rfl, rfl, rfl, rfl⟩
  case full =>
    have hstep : e' = (e.shuffle cfg).absorbNibble cfg x := e.absorbNibble_of_full cfg x hfull
    refine ⟨hstep, ?_⟩
    rw [hstep, Engine.absorbNibble_of_ne cfg _ x (by simp), Engine.shuffle_a]
    rfl

/-- A run of at least one drip leaves nothing absorbed. -/
theorem Engine.squeeze_succ_a (cfg : Cfg) (e : Engine) (n : Nat) : (e.squeeze cfg (n + 1)).engine.a = 0 := by
  induction n generalizing e with
  | zero => exact e.drip_a cfg
  | succ n ih => exact ih (e.drip cfg).engine

/-- Settles O38: before an absorb step counts, `a` is below 128. -/
theorem absorbCountStaysBounded : Obligations.AbsorbCountStaysBounded := by
  intro cfg e ha
  have hlt := e.shuffleIfFull_a cfg ha
  have hlow : 1#8 ≤ (e.shuffleIfFull cfg).a + 1 := by bv_omega
  have hhigh := Engine.count_le _ hlt
  refine ⟨fun _ => ⟨hlow, hhigh⟩, hlow, hhigh, by bv_omega, rfl, e.drip_a cfg, fun n hn => ?_, rfl⟩
  obtain ⟨m, rfl⟩ := Nat.exists_eq_add_of_le' hn
  exact e.squeeze_succ_a cfg m

/-! ### The S-box stays a permutation (R117) -/

/-- Settles O37: each micro-operation only rearranges the S-box; the wiped one holds 0 at every address. -/
theorem microOperationsKeepThePermutation : Obligations.MicroOperationsKeepThePermutation := by
  refine ⟨fun cfg e (h : e.IsPermutation) => ?kept, Engine.initial_liveOk.1, fun s => ⟨fun h => ?wiped, rfl⟩⟩
  case kept =>
    exact ⟨fun x y => h.of_rearranges (e.swap_rearranges x y), h.of_rearranges e.update_rearranges,
      fun r => h.of_rearranges (e.whip_rearranges r),
      fun p q => ⟨h.of_rearranges (e.crushPairPlain_rearranges p q),
        e.crushPairMasked_eq p q ▸ h.of_rearranges (e.crushPairPlain_rearranges p q)⟩,
      h.of_rearranges (e.crush_rearranges cfg), h.of_rearranges (e.shuffle_rearranges cfg),
      fun x => h.of_rearranges (e.absorbNibble_rearranges cfg x),
      fun b => h.of_rearranges (e.absorbByte_rearranges cfg b), h.of_rearranges (e.absorbStop_rearranges cfg),
      h.of_rearranges e.output_rearranges, h.of_rearranges (e.drip_rearranges cfg),
      fun n => h.of_rearranges (e.squeeze_rearranges cfg n)⟩
  case wiped =>
    have hzero : ∀ x, s.ctxWipe.engine.load x = 0 := Image.load_zero
    exact absurd (h.injective ((hzero 0).trans (hzero 1).symm)) (by decide)

/-! ### `output` and `drip` (R112, R113) -/

/-- Settles O35: `output`'s reads, in their order. -/
theorem outputReadsThreeTimes : Obligations.OutputReadsThreeTimes := fun _ => ⟨rfl, rfl, rfl, rfl⟩

theorem Engine.drip_of_ne (cfg : Cfg) (e : Engine) (h : e.a ≠ 0) : e.drip cfg = (e.shuffle cfg).output := by
  rw [Engine.drip_def, if_pos (by bv_omega)]

theorem Engine.drip_of_eq (cfg : Cfg) (e : Engine) (h : e.a = 0) : e.drip cfg = e.output := by
  rw [Engine.drip_def, h]
  rfl

/-- Settles O36: `drip`'s test on `a`. -/
theorem dripShufflesAbsorbedInput : Obligations.DripShufflesAbsorbedInput := fun cfg e =>
  ⟨e.drip_of_ne cfg, e.drip_of_eq cfg, e.drip_a cfg⟩

/-- Settles O40: with nothing absorbed `DRIP` is `output`, whose S-box is the one `update` leaves. -/
theorem dripWithNothingAbsorbedSwapsOnce : Obligations.DripWithNothingAbsorbedSwapsOnce := by
  intro s he hl hwf ha
  have hctx : (effectOf .drip s).ctx = s.engine.output.engine.toCtx := by
    simp [effectOf, s.engine.drip_of_eq s.cfg ha]
  have hread : ∀ x : Byte, Memory.read (effectOf .drip s).ctx.s x.toNat = s.engine.update.load x := fun x => by
    rw [hctx, Engine.read_toCtx, Engine.output_load]
  have hbefore : ∀ x : Byte, Memory.read s.ctx.s x.toNat = s.engine.load x := fun x =>
    (Ctx.load_toEngine s.ctx hwf x).symm
  refine ⟨_, exec_effect .drip s he fun _ => hl, ?_⟩
  simp only [hread, hbefore]
  rw [hctx]
  exact ⟨s.engine.update_i, s.engine.update_w, s.engine.load_update_left, s.engine.load_update_right,
    fun _ => s.engine.load_update_of_ne⟩

end Sys2Proof.Machine
end

section
/-! Context creation and absorbing (41_setup_absorb.md): `NOP`, `INIT`, `ABSB` and `STOP`, each its effect
(`effectOf`) with the frame that the context commands but `FINAL` and `UNIF` have in common. -/

namespace Sys2Proof.Machine

open Sys2Proof

/-! ### What context commands have in common (R130) -/

/-- A context command on a dead context leaves the `NOT_LIVE` fault's state (60_exceptions.md R212, R214). -/
theorem exec_notLive (i : Instr) (s : State) (he : s.err = 0) (hi : i.needsLive = true) (hd : s.live = false) :
    exec i s = .next (s.notLive i.length) := exec_dead i s he hi hd

/-- The frame of a context command, but for `FINAL`, which may wipe, and `UNIF`, which moves the sequencer
(10_state.md R40). -/
theorem effectOf_keepsAround (i : Instr) (s : State) (hi : i.needsLive = true) (hfinal : ∀ n, i ≠ .final n)
    (hunif : ∀ upper, i ≠ .unif upper) : s.KeepsAround (effectOf i s) := by
  have hne : ∀ j : Instr, j.needsLive = false → i ≠ j := by
    rintro j hj rfl
    simp [hj] at hi
  exact ⟨effectOf_keepsPorts i s, effectOf_live i s (hne _ rfl) (hne _ rfl) hfinal,
    effectOf_c i s (hne _ rfl) fun _ _ => hne _ rfl, effectOf_seq i s hunif⟩

/-! ### `NOP` and `INIT` (R131, R132) -/

/-- Settles O24: `NOP`'s effect is to complete, and clear latches settle as they are. -/
theorem nopOnlyAdvancesPc : Obligations.NopOnlyAdvancesPc := by
  refine ⟨rfl, fun s he hlatches => ?_⟩
  rw [exec_effect .nop s he nofun, effectOf, State.complete_unused s 1 hlatches]
  rfl

/-- Settles O25: the context `INIT` leaves is the initial engine's, of whatever context it finds. -/
theorem initCreatesTheContext : Obligations.InitCreatesTheContext := by
  refine ⟨rfl, rfl, fun s he => ⟨effectOf .init s, exec_effect .init s he nofun, ?_⟩⟩
  have hctx : (effectOf .init s).ctx = Engine.initial.toCtx := by simp [effectOf]
  have hbox : ∀ v : Byte, Memory.read Engine.initial.toCtx.s v.toNat = v := fun v => by
    rw [Engine.read_toCtx, Engine.load_initial]
  rw [hctx]
  exact ⟨hbox, Engine.toCtx_wf _, rfl, rfl, rfl, rfl, rfl, rfl, by simp [effectOf], by simp [effectOf],
    by simp [effectOf], effectOf_c .init s nofun fun _ _ => nofun, effectOf_seq .init s fun _ => nofun,
    effectOf_keepsPorts .init s⟩

/-! ### `ABSB` (R133; 40_primitives.md R109) -/

/-- Masking a byte with 0x0F keeps the four bits that are cut out of it. -/
theorem setWidth_and_nibbleMask (b : Byte) : (b &&& 0x0F#8).setWidth 4 = b.setWidth 4 := by
  rw [BitVec.setWidth_and, show (0x0F#8).setWidth 4 = BitVec.allOnes 4 from rfl, BitVec.and_allOnes]

theorem lowNibble_eq_extractLsb' (b : Byte) : lowNibble b = b.extractLsb' 0 4 := by
  rw [lowNibble, setWidth_and_nibbleMask, BitVec.setWidth_eq_extractLsb' (by decide)]

theorem highNibble_eq_extractLsb' (b : Byte) : highNibble b = b.extractLsb' 4 4 := by
  rw [highNibble, setWidth_and_nibbleMask]
  ext n hn
  simp

/-- `absorb_byte` by the byte's bit slices. -/
theorem Engine.absorbByte_eq_slices (cfg : Cfg) (e : Engine) (b : Byte) :
    e.absorbByte cfg b = (e.absorbNibble cfg (b.extractLsb' 0 4)).absorbNibble cfg (b.extractLsb' 4 4) := by
  rw [Engine.absorbByte, lowNibble_eq_extractLsb', highNibble_eq_extractLsb']

/-- Settles O26: the nibbles `absorb_byte` absorbs are the byte's bit slices. -/
theorem absbAbsorbsTwoNibbles : Obligations.AbsbAbsorbsTwoNibbles := by
  refine fun b => ⟨rfl, fun s he hd => exec_notLive (.absb b) s he rfl hd, fun s he hl => ?live⟩
  case live =>
    have hctx : (effectOf (.absb b) s).ctx = (s.engine.absorbByte s.cfg b).toCtx := by simp [effectOf]
    rw [Engine.absorbByte_eq_slices] at hctx
    exact ⟨_, exec_effect (.absb b) s he fun _ => hl, hctx, by simp [effectOf], by simp [effectOf],
      effectOf_keepsAround (.absb b) s rfl (fun _ => nofun) (fun _ => nofun), effectOf_latches _ _⟩

/-! ### `STOP` (R134; 40_primitives.md R111) -/

theorem Engine.absorbStop_of_full (cfg : Cfg) (e : Engine) (h : e.a = 0x80#8) :
    e.absorbStop cfg = { e.shuffle cfg with a := 1 } := by
  rw [Engine.absorbStop, Engine.shuffleIfFull, if_pos h]
  rfl

theorem Engine.absorbStop_of_ne (cfg : Cfg) (e : Engine) (h : e.a ≠ 0x80#8) :
    e.absorbStop cfg = { e with a := e.a + 1 } := by
  rw [Engine.absorbStop, Engine.shuffleIfFull_of_ne cfg e h]

/-- An engine whose count alone has changed leaves the canonical context it came from, with that count. -/
theorem Ctx.toCtx_toEngine_count (c : Ctx) (h : Memory.wf c.s = true) (a : Byte) :
    ({ c.toEngine with a := a } : Engine).toCtx = { c with a := a } :=
  congrArg (fun d : Ctx => { d with a := a }) (c.toCtx_toEngine h)

/-- Settles O28: by whether `absorb_stop` finds the context full. -/
theorem stopCountsOneStep : Obligations.StopCountsOneStep := by
  refine ⟨rfl, fun s he hd => exec_notLive .stop s he rfl hd, fun s he hl => ?live⟩
  case live =>
    have hctx : (effectOf .stop s).ctx = (s.engine.absorbStop s.cfg).toCtx := by simp [effectOf]
    refine ⟨_, exec_effect .stop s he fun _ => hl, fun hfull => ?full, fun hroom hwf => ?room, by simp [effectOf],
      by simp [effectOf], effectOf_keepsAround .stop s rfl (fun _ => nofun) (fun _ => nofun), effectOf_latches _ _⟩
    case full => rw [hctx, Engine.absorbStop_of_full s.cfg s.engine hfull]
    case room =>
      rw [hctx, Engine.absorbStop_of_ne s.cfg s.engine hroom]
      exact s.ctx.toCtx_toEngine_count hwf (s.ctx.a + 1)

end Sys2Proof.Machine
end

section
/-! The keystream (42_keystream_crypt.md): `DRIP`, `SQZ` and `U32` emit what `squeeze` drips, `XORB` is its own inverse,
and `UNIF` ends with the first draw it does not reject, in whichever step that draw is made. -/

namespace Sys2Proof.Machine

open Sys2Proof

/-! ### Commands one after the other (R60) -/

theorem execAll_cons {i : Instr} {s t : State} (h : exec i s = .next t) (is : List Instr) :
    execAll (i :: is) s = execAll is t := by
  rw [execAll, h]

theorem State.KeepsPorts.trans {s t u : State} (h : s.KeepsPorts t) (h' : t.KeepsPorts u) : s.KeepsPorts u := by
  obtain ⟨herr, hasm, hcfg, hcmd, hrst⟩ := h
  obtain ⟨herr', hasm', hcfg', hcmd', hrst'⟩ := h'
  exact ⟨herr'.trans herr, hasm'.trans hasm, hcfg'.trans hcfg, hcmd'.trans hcmd, hrst'.trans hrst⟩

theorem State.KeepsAround.refl (s : State) : s.KeepsAround s := ⟨⟨rfl, rfl, rfl, rfl, rfl⟩, rfl, rfl, rfl⟩

theorem State.KeepsAround.trans {s t u : State} (h : s.KeepsAround t) (h' : t.KeepsAround u) : s.KeepsAround u := by
  obtain ⟨hports, hlive, hc, hseq⟩ := h
  obtain ⟨hports', hlive', hc', hseq'⟩ := h'
  exact ⟨hports.trans hports', hlive'.trans hlive, hc'.trans hc, hseq'.trans hseq⟩

/-! ### `DRIP` and `XORB` (R150, R155, R156) -/

theorem effectOf_drip_ctx (s : State) : (effectOf .drip s).ctx = (s.engine.drip s.cfg).engine.toCtx := by
  simp [effectOf]

theorem effectOf_drip_out (s : State) : (effectOf .drip s).out = s.out ++ [(s.engine.drip s.cfg).byte] := by
  simp [effectOf]

theorem effectOf_drip_keepsAround (s : State) : s.KeepsAround (effectOf .drip s) :=
  effectOf_keepsAround .drip s rfl (fun _ => nofun) fun _ => nofun

/-- The byte `XORB b` emits from `s` (R155). -/
def State.xorByte (b : Byte) (s : State) : Byte := b ^^^ (s.engine.drip s.cfg).byte

theorem effectOf_xorb_ctx (b : Byte) (s : State) :
    (effectOf (.xorb b) s).ctx = (s.engine.drip s.cfg).engine.toCtx := by
  simp [effectOf]

theorem effectOf_xorb_out (b : Byte) (s : State) :
    (effectOf (.xorb b) s).out = s.out ++ [s.xorByte b] := by
  simp [effectOf, State.xorByte]

theorem effectOf_xorb_keepsAround (b : Byte) (s : State) : s.KeepsAround (effectOf (.xorb b) s) :=
  effectOf_keepsAround (.xorb b) s rfl (fun _ => nofun) fun _ => nofun

/-- Settles O39: `DRIP`'s effect is one `drip`, whose byte is the new `z`. -/
theorem dripEmitsOneByte : Obligations.DripEmitsOneByte := by
  refine ⟨rfl, rfl, fun s he hd => exec_notLive .drip s he rfl hd, fun s he hl =>
    ⟨_, exec_effect .drip s he fun _ => hl, effectOf_drip_ctx s, effectOf_drip_out s, ?z, ?a, by simp [effectOf],
      effectOf_drip_keepsAround s, effectOf_latches _ _⟩⟩
  case z =>
    rw [effectOf_drip_ctx]
    exact s.engine.drip_z s.cfg
  case a =>
    rw [effectOf_drip_ctx]
    exact s.engine.drip_a s.cfg

/-- Settles O49: `XORB` leaves the context `DRIP` leaves. -/
theorem xorbEmitsTheXor : Obligations.XorbEmitsTheXor := fun b =>
  ⟨rfl, fun s he hd => exec_notLive (.xorb b) s he rfl hd, fun s he hl =>
    ⟨_, _, exec_effect (.xorb b) s he fun _ => hl, effectOf_xorb_ctx b s, effectOf_xorb_out b s, by simp [effectOf],
      effectOf_xorb_keepsAround b s, effectOf_latches _ _, exec_effect .drip s he fun _ => hl,
      (effectOf_xorb_ctx b s).trans (effectOf_drip_ctx s).symm⟩⟩

/-- From equal contexts two builds drip the same (R8). -/
theorem drip_eq_of_ctx {s s' : State} (h : s'.ctx = s.ctx) : s'.engine.drip s'.cfg = s.engine.drip s.cfg := by
  rw [State.engine_def, h, Engine.drip_eq s'.cfg s.cfg, State.engine_def]

/-- The byte dripped from an equal context takes out again what the first has put in. -/
theorem State.xorByte_xorByte {s s' : State} (h : s'.ctx = s.ctx) (b : Byte) : s'.xorByte (s.xorByte b) = b := by
  rw [State.xorByte, State.xorByte, drip_eq_of_ctx h, BitVec.xor_assoc, BitVec.xor_self, BitVec.xor_zero]

/-- Settles O50: byte by byte, the two runs drip the same and so keep their contexts equal. -/
theorem xorbIsAnInvolution : Obligations.XorbIsAnInvolution := by
  intro message
  induction message with
  | nil => exact fun s s' _ _ _ _ hctx => ⟨[], s, s', rfl, by simp, rfl, by simp, hctx⟩
  | cons b message ih =>
    intro s s' he hl he' hl' hctx
    obtain ⟨⟨herr, -⟩, hlive, -⟩ := effectOf_xorb_keepsAround b s
    obtain ⟨⟨herr', -⟩, hlive', -⟩ := effectOf_xorb_keepsAround (s.xorByte b) s'
    obtain ⟨cipher, t, t', hrun, hout, hrun', hout', hend⟩ :=
      ih (effectOf (.xorb b) s) (effectOf (.xorb (s.xorByte b)) s') (herr.trans he) (hlive.trans hl)
        (herr'.trans he') (hlive'.trans hl') (by rw [effectOf_xorb_ctx, effectOf_xorb_ctx, drip_eq_of_ctx hctx])
    refine ⟨s.xorByte b :: cipher, t, t', ?_, ?_, ?_, ?_, hend⟩
    · exact (execAll_cons (exec_effect (.xorb b) s he fun _ => hl) _).trans hrun
    · rw [hout, effectOf_xorb_out, List.append_assoc, List.singleton_append]
    · exact (execAll_cons (exec_effect (.xorb (s.xorByte b)) s' he' fun _ => hl') _).trans hrun'
    · rw [hout', effectOf_xorb_out, State.xorByte_xorByte hctx, List.append_assoc, List.singleton_append]

/-! ### `SQZ` and `U32` (R151, R152) -/

theorem effectOf_sqz_ctx (n : Byte) (s : State) :
    (effectOf (.sqz n) s).ctx = (s.engine.squeeze s.cfg n.toNat).engine.toCtx := by
  simp [effectOf]

theorem effectOf_sqz_out (n : Byte) (s : State) :
    (effectOf (.sqz n) s).out = s.out ++ (s.engine.squeeze s.cfg n.toNat).bytes := by
  simp [effectOf]

/-- `n` `DRIP`s leave what `squeeze(n)` leaves (40_primitives.md R114). -/
theorem execAll_drips (n : Nat) (s : State) (he : s.err = 0) (hl : s.live = true) (hwf : Memory.wf s.ctx.s = true) :
    ∃ u, execAll (List.replicate n .drip) s = .next u ∧ u.ctx = (s.engine.squeeze s.cfg n).engine.toCtx ∧
      u.out = s.out ++ (s.engine.squeeze s.cfg n).bytes ∧ s.KeepsAround u := by
  induction n generalizing s with
  | zero => exact ⟨s, rfl, (s.ctx.toCtx_toEngine hwf).symm, by simp, .refl s⟩
  | succ n ih =>
    have hctx := effectOf_drip_ctx s
    have haround := effectOf_drip_keepsAround s
    have ⟨⟨herr, _, hcfg, _⟩, hlive, _⟩ := haround
    obtain ⟨u, hrun, huctx, huout, hu⟩ := ih (effectOf .drip s) (herr.trans he) (hlive.trans hl)
      (by rw [hctx, Engine.toCtx_wf])
    rw [State.engine_def, hctx, Engine.toEngine_toCtx, hcfg] at huctx huout
    refine ⟨u, (execAll_cons (exec_effect .drip s he fun _ => hl) _).trans hrun, huctx, ?_, haround.trans hu⟩
    rw [huout, effectOf_drip_out, List.append_assoc, List.singleton_append, Engine.squeeze_succ]

/-- `SQZ 0` on clear latches only counts itself in `pc`. -/
theorem effectOf_sqz_zero (s : State) (hwf : Memory.wf s.ctx.s = true) (h : s.LatchesClear) :
    effectOf (.sqz 0) s = { s with pc := s.pc + 2 } := by
  have hsame : (s.setEngine s.engine).emitAll [] = s := by
    rw [State.emitAll, List.append_nil, State.setEngine, State.engine_def, s.ctx.toCtx_toEngine hwf]
  exact (congrArg (State.complete false 2) hsame).trans (s.complete_unused 2 h)

/-- Settles O41: `SQZ` and the `DRIP`s both leave what `squeeze` leaves. -/
theorem sqzIsConsecutiveDrips : Obligations.SqzIsConsecutiveDrips := by
  intro n
  refine ⟨rfl, fun s he hd => exec_notLive (.sqz n) s he rfl hd, fun s he hl hwf => ?live⟩
  case live =>
    obtain ⟨u, hrun, hctx, hout, hu⟩ := execAll_drips n.toNat s he hl hwf
    refine ⟨_, u, exec_effect (.sqz n) s he fun _ => hl, hrun, (effectOf_sqz_ctx n s).trans hctx.symm,
      (effectOf_sqz_out n s).trans hout.symm, ?_, by simp [effectOf],
      effectOf_keepsAround (.sqz n) s rfl (fun _ => nofun) (fun _ => nofun), hu, effectOf_latches _ _, ?_⟩
    · rw [effectOf_sqz_out, List.length_append, Engine.squeeze_length]
    · rintro rfl hlatches
      exact effectOf_sqz_zero s hwf hlatches

theorem effectOf_u32_ctx (s : State) : (effectOf .u32 s).ctx = (s.engine.draw s.cfg).engine.toCtx := by
  simp [effectOf]

theorem effectOf_u32_out (s : State) :
    (effectOf .u32 s).out = s.out ++ bytesOfWord (s.engine.draw s.cfg).word := by
  simp [effectOf]

/-- Settles O42: `U32`'s draw is what four drips squeeze, and its word is taken apart as it was assembled. -/
theorem u32EmitsFourDrips : Obligations.U32EmitsFourDrips := by
  refine ⟨rfl, rfl, fun s he hd => exec_notLive .u32 s he rfl hd, fun s he hl => ?live⟩
  case live =>
    have hout : (effectOf .u32 s).out = s.out ++ (s.engine.draw s.cfg).bytes := by
      rw [effectOf_u32_out, Draw.bytesOfWord_word]
    have hsqueeze : s.engine.squeeze s.cfg (4 : Byte).toNat =
        ⟨(s.engine.draw s.cfg).bytes, (s.engine.draw s.cfg).engine⟩ := s.engine.draw_squeeze s.cfg
    refine ⟨_, _, exec_effect .u32 s he fun _ => hl, effectOf_u32_ctx s, hout, effectOf_u32_out s, by simp [effectOf],
      effectOf_keepsAround .u32 s rfl (fun _ => nofun) (fun _ => nofun), effectOf_latches _ _,
      exec_effect (.sqz 4) s he fun _ => hl, ?out, ?ctx⟩
    case out => rw [effectOf_sqz_out, hsqueeze, hout]
    case ctx => rw [effectOf_sqz_ctx, hsqueeze, effectOf_u32_ctx]

/-! ### `UNIF`'s arithmetic (R153, R154; 90_conflicts.md C4) -/

/-- Reducing `2^32 - upper` to 32 bits changes nothing: a bound that is not 0 leaves it below `2^32`. -/
theorem unifMin_eq_sub_mod {upper : Word} (h : 0 < upper.toNat) :
    unifMin upper = (2 ^ 32 - upper.toNat) % upper.toNat := by
  rw [unifMin, Nat.mod_eq_of_lt (Nat.sub_lt (by decide) h)]

theorem unifMin_eq_mod {upper : Word} (h : 0 < upper.toNat) : unifMin upper = 2 ^ 32 % upper.toNat := by
  rw [unifMin_eq_sub_mod h, ← Nat.mod_eq_sub_mod upper.isLt.le]

/-- The value is not cut off by the word it is put in. -/
theorem unifValue_toNat (upper r : Word) : (unifValue upper r).toNat = r.toNat % upper.toNat := by
  rw [unifValue, BitVec.toNat_ofNat, Nat.mod_eq_of_lt ((Nat.mod_le _ _).trans_lt r.isLt)]

theorem unifAccepts_iff (upper r : Word) : unifAccepts upper r = true ↔ unifMin upper ≤ r.toNat :=
  decide_eq_true_iff

theorem unifAccepts_eq_false_iff (upper r : Word) : unifAccepts upper r = false ↔ r.toNat < unifMin upper :=
  decide_eq_false_iff_not.trans Nat.not_le

/-- Settles O46: `min` is a remainder; above `2^31` the quotient is 1. -/
theorem unifBoundLeavesAMultiple : Obligations.UnifBoundLeavesAMultiple := by
  intro upper h
  have hpos : 0 < upper.toNat := by omega
  have hlt : 2 ^ 32 % upper.toNat < upper.toNat := Nat.mod_lt _ hpos
  have habove : 2 ^ 31 < upper.toNat → 2 ^ 32 % upper.toNat = 2 ^ 32 - upper.toNat := fun hhigh => by
    rw [Nat.mod_eq_sub_mod upper.isLt.le, Nat.mod_eq_of_lt (by omega)]
  rw [unifMin_eq_mod hpos]
  refine ⟨rfl, hlt, Nat.dvd_sub_mod _, ?half, habove, Nat.mod_eq_zero_of_dvd⟩
  case half =>
    by_cases hhigh : 2 ^ 31 < upper.toNat
    · have := habove hhigh
      omega
    · omega

/-! ### `UNIF`'s first accepted draw (R153) -/

/-- Draw `k` is the first that `UNIF` does not reject. -/
def Engine.FirstAccepted (cfg : Cfg) (upper : Word) (k : Nat) (e : Engine) : Prop :=
  (∀ n < k, (e.nthDraw cfg n).word.toNat < unifMin upper) ∧ unifMin upper ≤ (e.nthDraw cfg k).word.toNat

theorem Engine.FirstAccepted.sample_eq_accepted {cfg : Cfg} {upper : Word} {k : Nat} {e : Engine}
    (h : e.FirstAccepted cfg upper k) {fuel : Nat} (hk : k < fuel) :
    e.sample cfg upper fuel = .accepted (e.nthDraw cfg k).word (e.nthDraw cfg k).engine :=
  e.sample_of_accepted cfg upper fuel k hk (fun n hn => (unifAccepts_eq_false_iff _ _).mpr (h.1 n hn))
    ((unifAccepts_iff _ _).mpr h.2)

theorem Engine.FirstAccepted.sample_eq_pending {cfg : Cfg} {upper : Word} {k : Nat} {e : Engine}
    (h : e.FirstAccepted cfg upper k) {fuel : Nat} (hk : fuel ≤ k) :
    e.sample cfg upper fuel = .pending (e.afterDraws cfg fuel) :=
  e.sample_of_rejected cfg upper fuel fun n hn => (unifAccepts_eq_false_iff _ _).mpr (h.1 n (by omega))

/-- Some draws later it is that many draws nearer. -/
theorem Engine.FirstAccepted.afterDraws {cfg : Cfg} {upper : Word} {m k : Nat} {e : Engine}
    (h : e.FirstAccepted cfg upper (m + k)) : (e.afterDraws cfg m).FirstAccepted cfg upper k := by
  obtain ⟨hrejected, haccepted⟩ := h
  refine ⟨fun n hn => ?_, ?_⟩
  · rw [← Engine.nthDraw_add]
    exact hrejected (m + n) (by omega)
  · rwa [← Engine.nthDraw_add]

/-- A `UNIF` of bound `upper` under way in `s` has ended in `t` with the draw `d`. -/
structure State.EndsUnif (upper : Word) (d : Draw) (s t : State) : Prop where
  ports : s.KeepsPorts t
  live : t.live = s.live
  c : t.c = s.c
  seq : t.seq = .idle
  pc : t.pc = s.pc + 5
  out : t.out = s.out ++ bytesOfWord (unifValue upper d.word)
  ctx : t.ctx = d.engine.toCtx

/-- Among the draws of one step the first accepted one ends the command. -/
theorem State.unifDraw_endsUnif (s : State) (upper : Word) {k : Nat} (hk : k < Config.drawsPerStep)
    (h : s.engine.FirstAccepted s.cfg upper k) :
    s.EndsUnif upper (s.engine.nthDraw s.cfg k) (s.unifDraw upper) := by
  have hu := s.unifDraw_accepted upper _ _ (h.sample_eq_accepted hk)
  exact ⟨s.unifDraw_keepsPorts upper, s.unifDraw_live upper, s.unifDraw_c upper, by simp [hu], by simp [hu],
    by simp [hu], by simp [hu]⟩

/-- A `UNIF` that ends after a step without an accepted draw ends as from before that step. -/
theorem State.EndsUnif.of_pending {upper : Word} {d : Draw} {s t : State} {e : Engine}
    (hp : s.unifDraw upper = ({ s.setEngine e with seq := .drawing upper }).settle true)
    (h : (s.unifDraw upper).EndsUnif upper d t) : s.EndsUnif upper d t where
  ports := (s.unifDraw_keepsPorts upper).trans h.ports
  live := h.live.trans (s.unifDraw_live upper)
  c := h.c.trans (s.unifDraw_c upper)
  seq := h.seq
  pc := by simp [h.pc, hp]
  out := by simp [h.out, hp]
  ctx := h.ctx

/-- While a `UNIF` draws, a step draws (R249). -/
theorem core_step_drawing {s : State} {upper : Word} (hr : s.rst = .low) (hq : s.seq = .drawing upper) :
    core.step s = .next (s.unifDraw upper) := (step_low s hr).trans (s.run_drawing upper hq)

/-- After its first step a `UNIF` takes one step more for each `Config.drawsPerStep` draws rejected in full (log
entry 6). -/
theorem State.run_unifDraw (upper : Word) (steps : Nat) {k : Nat} (hk : k < Config.drawsPerStep) (s : State)
    (hr : s.rst = .low) (h : s.engine.FirstAccepted s.cfg upper (Config.drawsPerStep * steps + k)) :
    ∃ t, Host.Core.run core steps (s.unifDraw upper) = .next t ∧
      s.EndsUnif upper (s.engine.nthDraw s.cfg (Config.drawsPerStep * steps + k)) t := by
  induction steps generalizing s with
  | zero =>
    rw [Nat.mul_zero, Nat.zero_add] at h ⊢
    exact ⟨_, rfl, s.unifDraw_endsUnif upper hk h⟩
  | succ steps ih =>
    have hsplit : Config.drawsPerStep * (steps + 1) + k =
        Config.drawsPerStep + (Config.drawsPerStep * steps + k) := by rw [Nat.mul_succ]; omega
    rw [hsplit] at h ⊢
    have hp := s.unifDraw_pending upper _ (h.sample_eq_pending (Nat.le_add_right _ _))
    have hengine : (s.unifDraw upper).engine = s.engine.afterDraws s.cfg Config.drawsPerStep := by
      simp [State.engine_def, hp]
    have hcfg := s.unifDraw_cfg upper
    obtain ⟨-, -, -, -, hrst⟩ := s.unifDraw_keepsPorts upper
    obtain ⟨t, hrun, hends⟩ := ih (s.unifDraw upper) (hrst.trans hr) (by rw [hengine, hcfg]; exact h.afterDraws)
    rw [hengine, hcfg, ← Engine.nthDraw_add] at hends
    exact ⟨t, (run_step core steps _ _ (core_step_drawing (hrst.trans hr) (by simp [hp]))).trans hrun,
      hends.of_pending hp⟩

/-! ### `UNIF` as a command (R153) -/

theorem effectOf_unif_of_low {upper : Word} (h : upper.toNat < 2) (s : State) :
    effectOf (.unif upper) s = (s.emitAll (bytesOfWord 0#32)).complete false 5 := by
  have hbound : upper < 2#32 := BitVec.lt_def.mpr h
  rw [effectOf, if_pos hbound]

theorem effectOf_unif_of_high {upper : Word} (h : 2 ≤ upper.toNat) (s : State) :
    effectOf (.unif upper) s = s.unifDraw upper := by
  have hbound : ¬ upper < 2#32 := by bv_omega
  rw [effectOf, if_neg hbound]

/-- Settles O44: a bound below 2 draws nothing; otherwise the step's loop ends with its first accepted draw. -/
theorem unifEmitsTheFirstAcceptedDraw : Obligations.UnifEmitsTheFirstAcceptedDraw := by
  refine fun upper => ⟨rfl, by simp [Source.expand, operandWord],
    fun s he hd => exec_notLive (.unif upper) s he rfl hd, fun hlow s he hl hlatches => ?low,
    fun hhigh s k he hl hq hk hrejected haccepted => ?high⟩
  case low =>
    rw [exec_effect (.unif upper) s he fun _ => hl, effectOf_unif_of_low hlow,
      State.complete_unused (s.emitAll _) 5 hlatches]
    rfl
  case high =>
    rw [← unifMin_eq_sub_mod (by omega)] at hrejected haccepted
    have hends := s.unifDraw_endsUnif upper hk ⟨hrejected, haccepted⟩
    exact ⟨s.unifDraw upper, _, by rw [exec_effect (.unif upper) s he fun _ => hl, effectOf_unif_of_high hhigh],
      unifValue_toNat _ _, hends.out, hends.ctx, hends.pc,
      ⟨hends.ports, hends.live, hends.c, hends.seq.trans hq.symm⟩, s.unifDraw_latches upper⟩

/-- Settles O45: 0 below the bound 1, and a remainder below every other bound but 0. -/
theorem unifResultIsBelowTheBound : Obligations.UnifResultIsBelowTheBound := by
  intro upper s t he hl _ hx hdone
  obtain rfl : effectOf (.unif upper) s = t := by simpa [exec_effect (.unif upper) s he fun _ => hl] using hx
  by_cases hlow : upper.toNat < 2
  · rw [effectOf_unif_of_low hlow]
    exact ⟨0#32, by simp, fun hne => by bv_omega, fun _ => rfl⟩
  · have hhigh : 2 ≤ upper.toNat := by omega
    rw [effectOf_unif_of_high hhigh] at hdone ⊢
    obtain ⟨k, -, -, -, hu⟩ | ⟨-, hu⟩ := s.unifDraw_cases upper
    · refine ⟨unifValue upper (s.engine.nthDraw s.cfg k).word, by simp [hu], fun _ => ?_,
        fun h0 => by simp [h0] at hhigh⟩
      rw [BitVec.lt_def, unifValue_toNat]
      exact Nat.mod_lt _ (by omega)
    · simp [hu] at hdone

/-- Settles O48: the first step takes the command's bytes and draws, and the steps after it go on drawing. -/
theorem unifCompletesWhenADrawIsAccepted : Obligations.UnifCompletesWhenADrawIsAccepted := by
  intro upper s rest k hr hq he hl hd hhigh hrejected haccepted
  have hfirst : step s = .next ((s.taken rest).unifDraw upper) := by
    rw [step_decode s hr hq he, s.decodeStep_ok _ rest hd, exec_effect (.unif upper) (s.taken rest) he fun _ => hl,
      effectOf_unif_of_high hhigh]
  have hk := Nat.div_add_mod k Config.drawsPerStep
  obtain ⟨t, hrun, hends⟩ := State.run_unifDraw upper (k / Config.drawsPerStep)
    (Nat.mod_lt k (by decide : 0 < Config.drawsPerStep)) (s.taken rest) hr
    (by rw [hk]; exact ⟨hrejected, haccepted⟩)
  rw [hk] at hends
  obtain ⟨herr, hasm, -, hcmd, -⟩ := hends.ports
  exact ⟨t, _, (run_step core _ s _ hfirst).trans hrun, unifValue_toNat _ _, hends.out, hends.ctx, hends.seq,
    hends.live.trans hl, herr.trans he, hends.pc, hasm, hcmd⟩

end Sys2Proof.Machine
end

section
/-! The hash/MAC sequencer (43_hash_mac.md): `FINAL` emits the digest, and the build decides whether the context after
it is the one the last drip left or wiped. -/

namespace Sys2Proof.Machine

open Sys2Proof

/-- `finish` is a `squeeze` and so emits as many bytes as it is asked for (40_primitives.md R114). -/
theorem Engine.finish_length (cfg : Cfg) (e : Engine) (n : Byte) : (e.finish cfg n).bytes.length = n.toNat :=
  Engine.squeeze_length _ _ _

theorem effectOf_final_pc (n : Byte) (s : State) : (effectOf (.final n) s).pc = s.pc + 2 := by
  obtain ⟨-, h⟩ | ⟨-, h⟩ := effectOf_final_cases n s <;> rw [h] <;> simp

theorem effectOf_final_of_wipe (n : Byte) (s : State) (hw : s.cfg.wipeAfterUsage = true) :
    (effectOf (.final n) s).ctx = Ctx.zero ∧ (effectOf (.final n) s).live = false ∧
      (effectOf (.final n) s).t0 = 0 ∧ (effectOf (.final n) s).t1 = 0 := by
  obtain ⟨hk, -⟩ | ⟨-, h⟩ := effectOf_final_cases n s
  · simp [hw] at hk
  · rw [h]
    exact ⟨rfl, rfl, rfl, rfl⟩

theorem effectOf_final_of_keep (n : Byte) (s : State) (hk : s.cfg.wipeAfterUsage = false) :
    (effectOf (.final n) s).ctx = (s.engine.finish s.cfg n).engine.toCtx ∧
      (effectOf (.final n) s).live = s.live := by
  obtain ⟨-, h⟩ | ⟨hw, -⟩ := effectOf_final_cases n s
  · simp [h]
  · simp [hk] at hw

/-- Settles O51: `FINAL`'s digest is what `finish` squeezes, and it ends with the wipe or without it as the build
has it. -/
theorem finalEmitsTheDigest : Obligations.FinalEmitsTheDigest := by
  refine fun n => ⟨rfl, by simp [Source.expand, operandByte], by simp [Source.expand, operandByte],
    fun s he hd => exec_notLive (.final n) s he rfl hd, fun s he hl => ?live⟩
  case live =>
    refine ⟨_, exec_effect (.final n) s he fun _ => hl, effectOf_final_out n s, s.engine.finish_length s.cfg n,
      effectOf_final_of_wipe n s, fun hk => ?kept, effectOf_final_pc n s,
      effectOf_c (.final n) s nofun fun _ _ => nofun, effectOf_seq (.final n) s fun _ => nofun,
      effectOf_keepsPorts (.final n) s, effectOf_latches _ _⟩
    case kept =>
      obtain ⟨hctx, hlive⟩ := effectOf_final_of_keep n s hk
      exact ⟨hctx, hlive.trans hl⟩

end Sys2Proof.Machine
end

section
/-! The timing-safe utilities (44_timing_safe_utilities.md): the comparator's three commands on a block with clear
latches, `COMPARE` as a run of them, and what a wipe leaves. -/

namespace Sys2Proof.Machine

open Sys2Proof

/-! ### The comparator (R191 to R193) -/

section
variable {s : State} (he : s.err = 0) (hlatches : s.LatchesClear)
include he hlatches

theorem exec_cmpclr : exec .cmpclr s = .next { s with c := 0, pc := s.pc + 1 } :=
  (exec_effect .cmpclr s he nofun).trans (congrArg _ (State.complete_unused { s with c := 0 } 1 hlatches))

theorem exec_cmpb (x y : Byte) : exec (.cmpb x y) s = .next { s with c := s.c ||| (x ^^^ y), pc := s.pc + 3 } :=
  (exec_effect (.cmpb x y) s he nofun).trans
    (congrArg _ (State.complete_unused { s with c := compareByte s.c x y } 3 hlatches))

theorem exec_cmprd : exec .cmprd s = .next { s with out := s.out ++ [s.c], pc := s.pc + 1 } :=
  (exec_effect .cmprd s he nofun).trans (congrArg _ (State.complete_unused (s.emit s.c) 1 hlatches))

end

/-- Settles O52: `CMPCLR`'s effect is to clear and complete, and clear latches settle as they are. -/
theorem cmpclrClearsTheAccumulator : Obligations.CmpclrClearsTheAccumulator :=
  ⟨rfl, fun _ he hlatches => exec_cmpclr he hlatches⟩

/-- Settles O53: an OR keeps the bits that are set. -/
theorem cmpbAccumulatesDifferences : Obligations.CmpbAccumulatesDifferences := fun x y =>
  ⟨rfl, fun _ he hlatches =>
    ⟨exec_cmpb he hlatches x y, fun _ hn => by rw [BitVec.getLsbD_or, hn, Bool.true_or]⟩⟩

/-- Settles O54: `CMPRD`'s effect is to emit and complete, and clear latches settle as they are. -/
theorem cmprdEmitsTheAccumulator : Obligations.CmprdEmitsTheAccumulator :=
  ⟨rfl, fun _ he hlatches => exec_cmprd he hlatches⟩

/-! ### `WIPE` (R194; 40_primitives.md R116) -/

/-- A wipe clears the latches in every build, so that there is nothing left to settle. -/
theorem effectOf_wipe (s : State) : effectOf .wipe s = s.ctxWipe.advance 1 :=
  s.ctxWipe.complete_unused 1 fun _ => ⟨rfl, rfl⟩

theorem needsLive_eq_false_iff (i : Instr) :
    i.needsLive = false ↔
      i = .init ∨ i = .wipe ∨ i = .nop ∨ i = .cmpclr ∨ i = .cmprd ∨ ∃ x y, i = .cmpb x y := by
  cases i <;> simp [Instr.needsLive]

/-- On an unlocked block with a dead context the commands that need a live one fault, and no others. -/
theorem exec_err_eq_zero_iff_of_dead {i : Instr} {s t : State} (he : s.err = 0) (hd : s.live = false)
    (h : exec i s = .next t) : t.err = 0 ↔ i.needsLive = false := by
  obtain ⟨hne, -⟩ | ⟨-, hi, -, rfl⟩ | ⟨-, hl, rfl⟩ := exec_cases i s t h
  · exact absurd he hne
  · simp [hi, Cause.code]
  · obtain ⟨herr, -⟩ := effectOf_keepsPorts i s
    exact iff_of_true (herr.trans he) (Bool.eq_false_iff.mpr fun hi => by simp [hl hi] at hd)

/-- Settles O55: the wiped context is written out field by field, and it is dead. -/
theorem wipeZeroesTheContext : Obligations.WipeZeroesTheContext := by
  refine ⟨rfl, rfl, fun s he => ⟨s.ctxWipe.advance 1, ?run, fun _ => rfl, rfl, rfl, rfl, rfl, rfl, rfl, rfl, rfl, rfl,
    rfl, rfl, rfl, rfl, ⟨rfl, rfl, rfl, rfl, rfl⟩, fun i u hx => ?after⟩⟩
  case run => rw [exec_effect .wipe s he nofun, effectOf_wipe]
  case after => rw [exec_err_eq_zero_iff_of_dead (s := s.ctxWipe.advance 1) he rfl hx, needsLive_eq_false_iff]

/-! ### `COMPARE` (R195; 30_encoding.md R92) -/

/-- The comparator's accumulator after the pairs, from `c` on: the OR of `c` and of the XOR of each pair. -/
def comparePairs (pairs : List (Byte × Byte)) (c : Byte) : Byte :=
  (pairs.map fun p => p.1 ^^^ p.2).foldl (· ||| ·) c

theorem comparePairs_cons (p : Byte × Byte) (pairs : List (Byte × Byte)) (c : Byte) :
    comparePairs (p :: pairs) c = comparePairs pairs (c ||| (p.1 ^^^ p.2)) := rfl

theorem comparePairs_zip (bufa bufb : List Byte) (c : Byte) :
    comparePairs (List.zip bufa bufb) c = (List.zipWith (· ^^^ ·) bufa bufb).foldl (· ||| ·) c := by
  rw [comparePairs, List.zip, List.map_zipWith]

theorem comparePairs_eq_zero_iff (pairs : List (Byte × Byte)) (c : Byte) :
    comparePairs pairs c = 0 ↔ c = 0 ∧ ∀ p ∈ pairs, p.1 = p.2 := by
  induction pairs generalizing c with
  | nil => simp [comparePairs]
  | cons p pairs ih =>
    rw [comparePairs_cons, ih]
    simp [and_assoc]

/-- The pairs of two buffers of one length are pairs of equal bytes exactly when the buffers are equal. -/
theorem forall_mem_zip_eq_iff {bufa bufb : List Byte} (hlen : bufa.length = bufb.length) :
    (∀ p ∈ List.zip bufa bufb, p.1 = p.2) ↔ bufa = bufb := by
  rw [← List.forall₂_eq_eq_eq, List.forall₂_iff_zip, Prod.forall]
  exact ⟨fun h => ⟨hlen, fun {_ _} hp => h _ _ hp⟩, fun ⟨_, h⟩ _ _ hp => h hp⟩

/-- The `CMPB`s and the `CMPRD` of `COMPARE`, from any accumulator on: the accumulator ends as `comparePairs` has it
and is emitted. -/
theorem execAll_cmpbs_cmprd (pairs : List (Byte × Byte)) (s : State) (he : s.err = 0) (hlatches : s.LatchesClear) :
    execAll (pairs.map (fun p => .cmpb p.1 p.2) ++ [.cmprd]) s =
      .next { s with
        c := comparePairs pairs s.c
        out := s.out ++ [comparePairs pairs s.c]
        pc := s.pc + 3 * pairs.length + 1 } := by
  induction pairs generalizing s with
  | nil => exact execAll_cons (exec_cmprd he hlatches) []
  | cons p pairs ih =>
    have hpc : s.pc + 3 * (p :: pairs).length + 1 = s.pc + 3 + 3 * pairs.length + 1 := by
      rw [List.length_cons]
      omega
    rw [hpc, List.map_cons, List.cons_append, execAll_cons (exec_cmpb he hlatches p.1 p.2)]
    exact ih { s with c := s.c ||| (p.1 ^^^ p.2), pc := s.pc + 3 } he hlatches

/-- Settles O56: `CMPCLR` clears the accumulator and leaves clear latches in every build, the `CMPB`s accumulate and
`CMPRD` emits. -/
theorem compareIsZeroExactlyOnEqualBuffers : Obligations.CompareIsZeroExactlyOnEqualBuffers := by
  intro bufa bufb s hlen he
  obtain ⟨herr, -⟩ := effectOf_keepsPorts .cmpclr s
  have hc : (effectOf .cmpclr s).c = 0 := by simp [effectOf]
  have hout : (effectOf .cmpclr s).out = s.out := by simp [effectOf]
  have hrun := execAll_cmpbs_cmprd (List.zip bufa bufb) (effectOf .cmpclr s) (herr.trans he) (effectOf_latches _ s)
  rw [hc, hout] at hrun
  exact ⟨_, comparePairs (List.zip bufa bufb) 0, (execAll_cons (exec_effect .cmpclr s he nofun) _).trans hrun, rfl,
    comparePairs_zip bufa bufb 0, by rw [comparePairs_eq_zero_iff, forall_mem_zip_eq_iff hlen, and_iff_right rfl],
    by simp [effectOf], by simp [effectOf]⟩

end Sys2Proof.Machine
end

section
/-! The faults (60_exceptions.md): an opcode byte that is no opcode faults at once, a context command on a dead context
faults before any effect, nothing else sets `err`, and a locked block discards until RESET. -/

namespace Sys2Proof.Machine

open Sys2Proof

/-! ### An illegal opcode (R211; 30_encoding.md R78) -/

/-- The opcode map of R76, from the side of what it leaves out. -/
theorem legalOpcode_eq_false_iff (op : Byte) :
    legalOpcode op = false ↔ (0x08#8 ≤ op ∧ op ≤ 0x3F#8) ∨ (0x44#8 ≤ op ∧ op ≤ 0x7F#8) ∨
      (0x81#8 ≤ op ∧ op ≤ 0xBF#8) ∨ 0xC1#8 ≤ op := by
  simp only [legalOpcode, Bool.or_eq_false_iff, Bool.and_eq_false_iff, decide_eq_false_iff_not, beq_eq_false_iff_ne]
  bv_omega

theorem decode_of_not_legalOpcode {op : Byte} (hop : legalOpcode op = false) (operands : List Byte) :
    decode (op :: operands) = .illegalOpcode operands := by
  obtain ⟨hrow, -⟩ | ⟨f, -, h8, -⟩ | ⟨f, -, h64, h68, -⟩ | ⟨-, rfl⟩ | ⟨-, rfl⟩ := opcodeTable_cases op
  · rw [decode_cons, hrow]
  · rw [legalOpcode_eq_false_iff] at hop
    bv_omega
  · rw [legalOpcode_eq_false_iff] at hop
    bv_omega
  · exact absurd hop (by decide)
  · exact absurd hop (by decide)

/-- No opcode announces more than a 32-bit operand (R70). -/
theorem operandCount_le (op : Byte) : operandCount op ≤ 4 := by
  rw [operandCount]
  split <;> decide

/-- What `ILLEGAL_OPCODE` leaves, field by field (R211, R214). -/
theorem State.illegalOpcode_eq (s : State) (rest : List Byte) :
    s.illegalOpcode rest = { s with
      ctx := Ctx.zero, live := false, t0 := 0, t1 := 0, err := 1, asm := [], cmd := rest, pc := s.pc + 1 } := rfl

/-- Settles O10: the illegal opcodes have no row in the table, and four bytes are operands enough for every other. -/
theorem otherOpcodesFaultAtOnce : Obligations.OtherOpcodesFaultAtOnce := by
  intro op operands illegal
  have hillegal : legalOpcode op = false ↔ illegal := legalOpcode_eq_false_iff op
  constructor
  case left =>
    intro hi s hr hq he ha hc
    have hd : decode s.pending = .illegalOpcode operands := by
      rw [State.pending, ha, hc]
      exact decode_of_not_legalOpcode (hillegal.mpr hi) operands
    rw [step_decode s hr hq he, s.decodeStep_illegal operands hd, State.illegalOpcode_eq, ha]
  case right =>
    intro hi hlen
    have hop : legalOpcode op = true := Bool.eq_true_of_not_eq_false fun h => hi (hillegal.mp h)
    obtain ⟨i, hd⟩ := decode_of_enough hop ((operandCount_le op).trans hlen)
    exact ⟨i, _, hd⟩

/-! ### The two causes (R210, R212) -/

/-- What a command leaves in `err`: the `NOT_LIVE` fault is the only one a command takes (R212). -/
theorem exec_err {i : Instr} {s t : State} (h : exec i s = .next t) :
    t.err = if s.err = 0 ∧ s.live = false ∧ i.needsLive = true then 2 else s.err := by
  obtain ⟨hne, rfl⟩ | ⟨he, hi, hd, rfl⟩ | ⟨-, hl, rfl⟩ := exec_cases i s t h
  · rw [if_neg fun hc => hne hc.1, State.discard_err]
  · rw [if_pos ⟨he, hd, hi⟩, State.advance_err, State.faultEntry_err, Cause.code]
  · obtain ⟨herr, -⟩ := effectOf_keepsPorts i s
    rw [herr, if_neg]
    rintro ⟨-, hd, hi⟩
    simp [hl hi] at hd

theorem needsLive_iff (i : Instr) :
    i.needsLive = true ↔ i = .stop ∨ i = .drip ∨ i = .u32 ∨ (∃ b, i = .absb b) ∨ (∃ b, i = .xorb b) ∨
      (∃ n, i = .sqz n) ∨ (∃ n, i = .final n) ∨ ∃ upper, i = .unif upper := by
  cases i <;> simp [Instr.needsLive]

/-- Settles O20: by what the decoder makes of the bytes that have arrived. -/
theorem exactlyTwoFaults : Obligations.ExactlyTwoFaults := by
  refine ⟨fun s t hr hq he h => ?_, needsLive_iff⟩
  rw [step_decode s hr hq he] at h
  rw [show s.asm ++ s.cmd = s.pending from rfl]
  cases hd : decode s.pending with
  | incomplete =>
    obtain rfl : s.hold = t := by simpa [s.decodeStep_incomplete hd] using h
    simp [he]
  | illegalOpcode rest =>
    obtain rfl : s.illegalOpcode rest = t := by simpa [s.decodeStep_illegal rest hd] using h
    simp [State.illegalOpcode_eq]
  | ok i rest =>
    rw [s.decodeStep_ok i rest hd] at h
    have herr : t.err = if s.live = false ∧ i.needsLive = true then 2 else 0 := by simpa [he] using exec_err h
    by_cases hf : s.live = false ∧ i.needsLive = true
    · rw [if_pos hf] at herr
      simp [herr, hf]
    · rw [if_neg hf] at herr
      simpa [herr] using hf

/-- Settles O19: `State.notLive` names the fault's state and writes it out. -/
theorem deadContextFaults : Obligations.DeadContextFaults := fun i s hi hd he =>
  ⟨exec_notLive i s he hi hd, exec_notLive i s he hi hd⟩

/-! ### The locked block (R215, R216) -/

theorem State.lockedStep_nil {s : State} (h : s.cmd = []) : s.lockedStep = s := by
  rw [State.lockedStep, h]

theorem State.lockedStep_cons {s : State} {b : Byte} {rest : List Byte} (h : s.cmd = b :: rest) :
    s.lockedStep = { s with cmd := rest, pc := s.pc + 1 } := by
  rw [State.lockedStep, h]
  rfl

theorem State.lockedStep_err (s : State) : s.lockedStep.err = s.err := by
  obtain ⟨-, hs⟩ | ⟨b, rest, -, hs⟩ := s.lockedStep_cases <;> rw [hs]

/-- STATUS stays readable, and reads the same (R215). -/
theorem State.lockedStep_status (s : State) : s.lockedStep.status = s.status := by
  obtain ⟨-, hs⟩ | ⟨b, rest, -, hs⟩ := s.lockedStep_cases
  · rw [hs]
  · rw [hs]
    rfl

theorem step_locked {s : State} (hr : s.rst = .low) (hq : s.seq = .idle) (he : s.err ≠ 0) :
    step s = .next s.lockedStep := by
  rw [step_low s hr, s.run_locked hq he]

/-- Settles O21: by whether a byte is there; a locked block's step moves only the stream and `pc`. -/
theorem lockedBlockDiscards : Obligations.LockedBlockDiscards := by
  intro s he
  refine ⟨fun hr hq => ?_, fun n => by rw [State.endedWell, beq_eq_false_iff_ne.mpr he, Bool.and_false]⟩
  rw [step_locked hr hq he]
  refine ⟨fun b rest hc => by rw [State.lockedStep_cons hc], fun hc => by rw [State.lockedStep_nil hc], ?_⟩
  rintro t ⟨⟩
  exact s.lockedStep_status

/-- While RESET is low, `err` stays or is set from 0 to one of the two causes (10_state.md R29). -/
theorem State.run_err {s t : State} (h : s.run = .next t) :
    t.err = s.err ∨ (s.err = 0 ∧ (t.err = 1 ∨ t.err = 2)) := by
  obtain ⟨upper, -, rfl⟩ | ⟨-, -, rfl⟩ | ⟨-, -, -, rfl⟩ | ⟨-, he, rest, -, rfl⟩ | ⟨-, -, i, rest, -, hx⟩ :=
    s.run_cases t h
  · obtain ⟨herr, -⟩ := s.unifDraw_keepsPorts upper
    exact .inl herr
  · exact .inl s.lockedStep_err
  · exact .inl rfl
  · exact .inr ⟨he, .inl rfl⟩
  · have herr := exec_err hx
    split at herr
    · next hf => exact .inr ⟨hf.1, .inr herr⟩
    · exact .inl herr

/-- Settles O22: a RESET, now or inside what the block does, leaves `err` 0, and the rest is `State.run_err`. -/
theorem onlyResetClearsErr : Obligations.OnlyResetClearsErr := by
  constructor
  case left =>
    intro s t h
    obtain ⟨-, hu⟩ | ⟨hr, rfl⟩ | ⟨k, u, hr, -, rfl⟩ := step_cases s t h
    · exact (State.run_err hu).imp_right .inl
    · exact .inr (.inr ⟨by simp [hr], rfl⟩)
    · exact .inr (.inr ⟨by simp [hr], rfl⟩)
  case right =>
    intro i s t h hne
    rw [exec_err h, if_neg fun hc => hne hc.1]

/-! ### Every step answers a next state (R218) -/

theorem State.decodeStep_total (s : State) : ∃ t, s.decodeStep = .next t := by
  cases hd : decode s.pending with
  | ok i rest => exact ⟨_, (s.decodeStep_ok i rest hd).trans (exec_eq i _)⟩
  | illegalOpcode rest => exact ⟨_, s.decodeStep_illegal rest hd⟩
  | incomplete => exact ⟨_, s.decodeStep_incomplete hd⟩

theorem State.run_total (s : State) : ∃ t, s.run = .next t := by
  cases hq : s.seq with
  | drawing upper => exact ⟨_, s.run_drawing upper hq⟩
  | idle =>
    by_cases he : s.err = 0
    · rw [s.run_unlocked hq he]
      exact s.decodeStep_total
    · exact ⟨_, s.run_locked hq he⟩

/-- Settles O15: `exec_eq` answers a next state for every command, and each input of RESET leaves one. -/
theorem everyStepAnswersANextState : Obligations.EveryStepAnswersANextState := by
  refine ⟨fun i s => ⟨_, exec_eq i s⟩, fun s => ?_⟩
  obtain ⟨u, hu⟩ := s.run_total
  cases hr : s.rst with
  | low => exact ⟨u, (step_low s hr).trans hu⟩
  | high => exact ⟨_, step_high s hr⟩
  | during k => exact ⟨_, step_during s u k hr hu⟩

end Sys2Proof.Machine
end

section
/-! RESET and the commands it may cut short (70_reset_and_hazards.md): RESET brings every piece of state but the build
to its reset value, the bytes emitted stay emitted, and an unfinished `UNIF` does nothing but draw. -/

namespace Sys2Proof.Machine

open Sys2Proof

/-! ### RESET (R240 to R242) -/

/-- Settles O2: with RESET high the step leaves `State.resetNow`, field by field the reset state. -/
theorem resetInputResetsEverything : Obligations.ResetInputResetsEverything := fun s hr =>
  ⟨s.resetNow, step_high s hr, fun _ => rfl, rfl, rfl, rfl, rfl, rfl, rfl, rfl, rfl, rfl, rfl, rfl, rfl, rfl, rfl,
    rfl, rfl⟩

/-- RESET inside a command lets out the first `k` of the bytes that the command would have emitted. -/
theorem State.resetWithin_out_of_emitted {s u : State} {emitted : List Byte} (k : Nat)
    (h : u.out = s.out ++ emitted) : (State.resetWithin k s u).out = s.out ++ emitted.take k := by
  rw [State.resetWithin_out, h, List.drop_left]

/-- The build is the one before the command, since no command changes it. -/
theorem State.resetWithin_cfg {s u : State} (k : Nat) (hu : s.run = .next u) :
    (State.resetWithin k s u).cfg = s.cfg := s.run_cfg u hu

/-- Settles O3: the step leaves `State.resetWithin`, which has the reset value in every field but `out` and `cfg`. -/
theorem resetCutsACommandShort : Obligations.ResetCutsACommandShort := fun s u k _ hr hu hout =>
  ⟨State.resetWithin k s u, step_during s u k hr hu, State.resetWithin_out_of_emitted k hout,
    rfl, rfl, rfl, rfl, rfl, rfl, rfl, rfl, rfl, State.resetWithin_cfg k hu⟩

/-! ### An unfinished `UNIF` (R249; 20_memory.md R60) -/

/-- Settles O47: some draw of the step is the first accepted one and ends the command (`State.unifDraw_endsUnif`), or
all are rejected and the loop stays pending. -/
theorem unfinishedUnifOnlyDraws : Obligations.UnfinishedUnifOnlyDraws := by
  intro s upper hr hq
  refine ⟨s.unifDraw upper, core_step_drawing hr hq, s.unifDraw_keepsPorts upper, s.unifDraw_live upper,
    s.unifDraw_c upper, ?_⟩
  obtain ⟨k, hk, hrejected, haccepted, -⟩ | ⟨hrejected, hu⟩ := s.unifDraw_cases upper
  · have hbelow : ∀ n < k, (s.engine.nthDraw s.cfg n).word.toNat < unifMin upper :=
      fun n hn => (unifAccepts_eq_false_iff _ _).mp (hrejected n hn)
    have habove : unifMin upper ≤ (s.engine.nthDraw s.cfg k).word.toNat := (unifAccepts_iff _ _).mp haccepted
    have hends := s.unifDraw_endsUnif upper hk ⟨hbelow, habove⟩
    exact .inr ⟨hends.seq, hends.pc, k, _, hk, hbelow, habove, unifValue_toNat _ _, hends.out, hends.ctx⟩
  · exact .inl ⟨by simp [hu], by simp [hu], by simp [hu], by simp [hu],
      fun n hn => (unifAccepts_eq_false_iff _ _).mp (hrejected n hn)⟩

end Sys2Proof.Machine
end
